-- ==== Sys2Proof/Word.lean ====
section
/-! DEFINITION. The word type of the engine and the value notation of spec/00_scope.md R10:
`Word`, `toWord`, `sint`, `ALL_ONES`. Bit i of a `Word` has weight 2^i (R9). -/
namespace Sys2Proof

/-- `Word` of R9 and R10: a 64-bit unsigned value, bit 0 least significant (`WORD_WIDTH`, R8). -/
abbrev Word := BitVec 64

/-- The command word on port CMD (`CMD_WIDTH`, R8, R61). -/
abbrev CmdWord := BitVec 32

/-- `ALL_ONES` of R10. As an integer result it is the not-found sentinel −1 (R16). -/
def allOnes : Word := 0xFFFF_FFFF_FFFF_FFFF#64

/-- `toWord(n)` of R10: the word congruent to n modulo 2^64 (two's complement). -/
def toWord (n : Int) : Word := BitVec.ofInt 64 n

/-- `sint(v)` of R10: v read as a two's-complement integer in [−2^63, 2^63 − 1]. -/
def sint (v : Word) : Int := v.toInt

end Sys2Proof
end

