-- ==== Sys2Proof/Syntax.lean ====
section
/-! DEFINITION. The 17 commands of spec/opcode_table.json and spec/30_encoding.md R64. A command word
holds only an opcode: no command has an immediate field (R70), and the operands come from ports A
and B with each command (R23), so no constructor has an argument. -/
namespace Sys2Proof

/-- One constructor per row of the opcode map R64, in its order. -/
inductive Instr where
  /-- GET, R82 -/
  | get
  /-- SET, R83 -/
  | set
  /-- CLEAR, R84 -/
  | clear
  /-- FLIP, R85 -/
  | flip
  /-- COUNT_ONES, R92 -/
  | countOnes
  /-- COUNT_ZEROS, R95 -/
  | countZeros
  /-- COUNT_BIT, R96 -/
  | countBit
  /-- RANK1, R106 -/
  | rank1
  /-- RANK0, R108 -/
  | rank0
  /-- LEAST_SET_BIT, R116 -/
  | leastSetBit
  /-- LEAST_SET_BIT_INDEX, R118 -/
  | leastSetBitIndex
  /-- SELECT1, R125 -/
  | select1
  /-- SELECT0, R126 -/
  | select0
  /-- LUT_BIT, R146 -/
  | lutBit
  /-- LUT_NOT_BIT, R147 -/
  | lutNotBit
  /-- LUT_LOW_MASK, R148 -/
  | lutLowMask
  /-- LUT_HIGH_MASK, R149 -/
  | lutHighMask
  deriving DecidableEq, Repr

end Sys2Proof
end

