-- ==== Sys2Proof/WellFormed.lean ====
section
/-! DEFINITION. What a command word must be to be legal (spec/30_encoding.md R61, R65, R66, R68),
stated on its bits and without the decoder. An `Instr` has no field, so every `Instr` is well
formed; the ill-formed terms of this hardware are command words. -/
namespace Sys2Proof

/-- R66: the reserved bits CMD[31:5] are zero, that is, the word is below 2^5. -/
def reservedBitsZero (cmd : CmdWord) : Bool := cmd.toNat < 32

/-- R65: the opcode CMD[4:0] is none of the reserved values 0x00, 0x0E, 0x0F, 0x14 to 0x1F. -/
def opcodeAssigned (cmd : CmdWord) : Bool :=
  let op := cmd.toNat % 32
  !(op == 0x00 || op == 0x0E || op == 0x0F || (0x14 ≤ op && op ≤ 0x1F))

/-- R68: legality depends on CMD alone: reserved bits zero and an assigned opcode. -/
def wfCommandWord (cmd : CmdWord) : Bool := reservedBitsZero cmd && opcodeAssigned cmd

end Sys2Proof
end

