-- ==== Sys2Proof/Decode.lean ====
section
/-! DEFINITION. Decoding and encoding of command words (spec/30_encoding.md R61 to R68). Decoding is
total on all 2^32 words and rejects by name; the encoder is written from the opcode map R64. After
them, each constructor's decoding is shown on a word written out from R64. -/
namespace Sys2Proof

/-- Why a command word is illegal: R66 or R65. -/
inductive Illegal where
  /-- CMD[31:5] is not zero (R66) -/
  | reservedBits
  /-- CMD[4:0] is a reserved opcode (R65) -/
  | reservedOpcode
  deriving DecidableEq, Repr

/-- What `decode` answers (R63): a command, or Illegal with the reason. -/
inductive Decoded where
  | legal (i : Instr)
  | illegal (why : Illegal)
  deriving DecidableEq, Repr

/-- The field `RSV` = CMD[31:5] of R61. -/
def rsvField (cmd : CmdWord) : BitVec 27 := cmd.extractLsb' 5 27

/-- The field `OP` = CMD[4:0] of R61. -/
def opField (cmd : CmdWord) : BitVec 5 := cmd.extractLsb' 0 5

/-- The opcode map of R63 and R64. -/
def decodeOp (op : BitVec 5) : Option Instr :=
  match op.toNat with
  | 0x01 => some .get
  | 0x02 => some .set
  | 0x03 => some .clear
  | 0x04 => some .flip
  | 0x05 => some .countOnes
  | 0x06 => some .countZeros
  | 0x07 => some .countBit
  | 0x08 => some .rank1
  | 0x09 => some .rank0
  | 0x0A => some .leastSetBit
  | 0x0B => some .leastSetBitIndex
  | 0x0C => some .select1
  | 0x0D => some .select0
  | 0x10 => some .lutBit
  | 0x11 => some .lutNotBit
  | 0x12 => some .lutLowMask
  | 0x13 => some .lutHighMask
  | _ => none

/-- `decode(CMD)` of R63. -/
def decode (cmd : CmdWord) : Decoded :=
  if rsvField cmd ≠ 0 then .illegal .reservedBits
  else
    match decodeOp (opField cmd) with
    | some i => .legal i
    | none => .illegal .reservedOpcode

/-- The opcode of a command, from the column OP of R64. -/
def opcode : Instr → BitVec 5
  | .get => 0x01#5
  | .set => 0x02#5
  | .clear => 0x03#5
  | .flip => 0x04#5
  | .countOnes => 0x05#5
  | .countZeros => 0x06#5
  | .countBit => 0x07#5
  | .rank1 => 0x08#5
  | .rank0 => 0x09#5
  | .leastSetBit => 0x0A#5
  | .leastSetBitIndex => 0x0B#5
  | .select1 => 0x0C#5
  | .select0 => 0x0D#5
  | .lutBit => 0x10#5
  | .lutNotBit => 0x11#5
  | .lutLowMask => 0x12#5
  | .lutHighMask => 0x13#5

/-- R73: the command word of a command: RSV = 0 above its opcode (layout R61). -/
def encode (i : Instr) : CmdWord := 0#27 ++ opcode i

/-- The host's question of the decoder. CMD is one 32-bit port (R61, R62), so an instruction is one
word and there is no byte order to lay out (R47): the table's bit numbers are the port's. Bits above
`nbits` are zero; a word that does not fit the port is no command word. -/
def decodeTableWord (nbits w : Nat) : Option Instr :=
  let v := w % 2 ^ nbits
  if v < 2 ^ 32 then
    match decode (BitVec.ofNat 32 v) with
    | .legal i => some i
    | .illegal _ => none
  else none

theorem decode_word_get : decode 0b00000000000000000000000000000001#32 = .legal .get := by decide
theorem decode_word_set : decode 0b00000000000000000000000000000010#32 = .legal .set := by decide
theorem decode_word_clear : decode 0b00000000000000000000000000000011#32 = .legal .clear := by decide
theorem decode_word_flip : decode 0b00000000000000000000000000000100#32 = .legal .flip := by decide
theorem decode_word_countOnes :
    decode 0b00000000000000000000000000000101#32 = .legal .countOnes := by decide
theorem decode_word_countZeros :
    decode 0b00000000000000000000000000000110#32 = .legal .countZeros := by decide
theorem decode_word_countBit :
    decode 0b00000000000000000000000000000111#32 = .legal .countBit := by decide
theorem decode_word_rank1 : decode 0b00000000000000000000000000001000#32 = .legal .rank1 := by decide
theorem decode_word_rank0 : decode 0b00000000000000000000000000001001#32 = .legal .rank0 := by decide
theorem decode_word_leastSetBit :
    decode 0b00000000000000000000000000001010#32 = .legal .leastSetBit := by decide
theorem decode_word_leastSetBitIndex :
    decode 0b00000000000000000000000000001011#32 = .legal .leastSetBitIndex := by decide
theorem decode_word_select1 :
    decode 0b00000000000000000000000000001100#32 = .legal .select1 := by decide
theorem decode_word_select0 :
    decode 0b00000000000000000000000000001101#32 = .legal .select0 := by decide
theorem decode_word_lutBit :
    decode 0b00000000000000000000000000010000#32 = .legal .lutBit := by decide
theorem decode_word_lutNotBit :
    decode 0b00000000000000000000000000010001#32 = .legal .lutNotBit := by decide
theorem decode_word_lutLowMask :
    decode 0b00000000000000000000000000010010#32 = .legal .lutLowMask := by decide
theorem decode_word_lutHighMask :
    decode 0b00000000000000000000000000010011#32 = .legal .lutHighMask := by decide

end Sys2Proof
end

