-- ==== Sys2Proof/Machine/State.lean ====
section
/-! DEFINITION. The state of the engine as the spec gives it (spec/10_state.md R20 to R44,
spec/70_reset_and_hazards.md R175 to R181): the ports, the reset input and the FIFO of accepted,
unanswered commands, with the schedule of the two agents' next moves as plain data. The engine has
no register, program counter, flag, memory or mode (R27 to R32, R45, R166), and the constant tables
are no state (R20, R44). -/
namespace Sys2Proof.Machine

/-- The two values STATUS can take (R25). The codes 0b10 and 0b11 are never produced (U11). -/
inductive Status where
  | ok
  | illegalCommand
  deriving DecidableEq, Repr

/-- One command as the host presents it (R22, R60): CMD, A and B together, and which of the hosts
sharing the engine issued it (R171). -/
structure Request where
  host : Nat
  cmd : CmdWord
  a : Word
  b : Word
  deriving DecidableEq, Repr

/-- One response as the engine returns it (R21, R24, R25): R and STATUS together, to the host that
issued the command (R171). -/
structure Response where
  host : Nat
  r : Word
  status : Status
  deriving DecidableEq, Repr

/-- An accepted command that is not answered yet, with its response, "fixed when it is accepted"
(R176). -/
structure InFlight where
  request : Request
  response : Response
  deriving DecidableEq, Repr

/-- The moves of the two agents. The host issues a command or changes the reset input (R189); the
engine returns its oldest response (R176). -/
inductive Event where
  /-- the host presents a command -/
  | issue (q : Request)
  /-- the engine returns the oldest response it owes -/
  | deliver
  /-- the host asserts `rst` -/
  | assertReset
  /-- the host releases `rst` -/
  | releaseReset
  deriving DecidableEq, Repr

/-- The whole state. `events` is the model's own field (log entry 2); every other field is the
spec's. -/
structure State where
  /-- the moves still to come, oldest first (DESIGN CHOICE, log entry 2): any order of them is one
  choice of HANDSHAKE, LATENCY and HOST_ARBITRATION (R8) -/
  events : List Event
  /-- the input `rst` is asserted (R21, R175) -/
  rst : Bool
  /-- the ports CMD, A and B of the command last presented, and its host (R21 to R23) -/
  current : Request
  /-- the FIFO of accepted, unanswered commands, oldest first (R44, R176) -/
  inFlight : List InFlight
  /-- the ports R and STATUS while a response is returned; `none` at every other time, when their
  values are unspecified and carry no meaning (R31, R180; log entry 4) -/
  out : Option Response
  deriving DecidableEq, Repr

/-- The five reasons of R157. -/
inductive Violation where
  | bitIndex
  | bitValue
  | rankIndex
  | negativeSelectRank
  | lutIndex
  deriving DecidableEq, Repr

/-- The reason string that R157 gives, which R158 records. -/
def Violation.text : Violation → String
  | .bitIndex => "bit index"
  | .bitValue => "bit value"
  | .rankIndex => "rank index"
  | .negativeSelectRank => "negative select rank"
  | .lutIndex => "lut index"

inductive Fault where
  /-- Raised by a legal command whose sint(B) breaks its precondition (R157), and by nothing else; it
  records the reason and the command (R158). SAFE: the engine goes on with an unconstrained R (R156)
  where the model stops, as R157 requires of a model (log entry 1). -/
  | contractViolation (reason : Violation) (command : Request)
  deriving DecidableEq, Repr

inductive Refusal where
  /-- An instruction that has no meaning in the model, rejected by name in exec's arm. No arm answers
  with it: all 17 commands have their meaning. SAFE: the model stops where the engine goes on. -/
  | notModelled (mnemonic : String)
  /-- Raised by the event `issue` while `rst` is asserted: a command in breach of the host's duty "has
  no specified effect" (R189) and no move in a model (U20). The refusal itself is SAFE, the model stops;
  that a host never does this is an assumption of every claim and UNSAFE (log entry 6). -/
  | commandInReset (command : Request)
  deriving DecidableEq, Repr

/-- What one step or one command answers. -/
abbrev Result := Host.Outcome State Fault Refusal

/-- The machine right after reset is released (R180, R181): idle, no command in flight, no response
returned. The ports CMD, A and B are inputs to which the spec gives no reset value: 0 is a DESIGN
CHOICE (log entry 5). Nothing is scheduled (log entries 7 and 9). -/
def State.reset : State where
  events := []
  rst := false
  current := { host := 0, cmd := 0#32, a := 0#64, b := 0#64 }
  inFlight := []
  out := none

end Sys2Proof.Machine
end

