-- ==== Sys2Proof/Machine/Lut.lean ====
section
/-! DEFINITION. The sub-block `bit_position_lut` (spec/00_scope.md R2): the four constant tables of
spec/10_state.md R33 to R37. They are constants, not state (R20, R44): nothing writes them and reset
does not change them (R41, R177). An entry is given by its formula; whether an implementation stores
it or derives it from the index is not observable (R49, C6; log entry 11). -/
namespace Sys2Proof.Machine

/-- The four tables of R33. -/
inductive Table where
  | bit
  | notBit
  | lowMask
  | highMask
  deriving DecidableEq, Repr

/-- The last index of a table (R8, R34 to R37, C5): 64 entries for BIT and NOT_BIT, 65 for LOW_MASK
and HIGH_MASK. -/
def lutLast : Table → Nat
  | .bit => 63
  | .notBit => 63
  | .lowMask => 64
  | .highMask => 64

/-- `BIT[i] = 1 << i` (R34). -/
def bitEntry (i : Nat) : Word := 1#64 <<< i

/-- `NOT_BIT[i] = ~(1 << i)` (R35). -/
def notBitEntry (i : Nat) : Word := ~~~(1#64 <<< i)

/-- `LOW_MASK[i]` (R36): the low i bits set. -/
def lowMaskEntry (i : Nat) : Word := if i ≤ 63 then (1#64 <<< i) - 1#64 else allOnes

/-- `HIGH_MASK[i] = LOW_MASK[64 - i] << i` (R37, C1): bits i to 63 set. -/
def highMaskEntry (i : Nat) : Word := lowMaskEntry (64 - i) <<< i

/-- The entry `T[i]`, meaningful for i up to `lutLast T`. -/
def lutEntry : Table → Nat → Word
  | .bit, i => bitEntry i
  | .notBit, i => notBitEntry i
  | .lowMask, i => lowMaskEntry i
  | .highMask, i => highMaskEntry i

end Sys2Proof.Machine
end

