-- ==== Sys2Proof/Machine/Ops.lean ====
section
/-! DEFINITION. The named operations the meanings are written with (the pseudocode primitives of
spec/00_scope.md R13): `respond`, `raise IllegalCommand`, `raise ContractViolation`, `LutRead`; and
the ports and FIFO of spec/10_state.md and spec/70_reset_and_hazards.md. There is no register, no
memory and no trap entry or return (R27, R45, R162, R163): the shared operation behind every
exceptional outcome is `raiseContractViolation` or `respondIllegal`. -/
namespace Sys2Proof.Machine

/-- Fixing the response of the command on the ports: the command enters the FIFO with it, behind the
commands accepted before (R176). -/
def answer (r : Word) (status : Status) (s : State) : State :=
  { s with inFlight := s.inFlight ++
      [{ request := s.current,
         response := { host := s.current.host, r := r, status := status } }] }

/-- `respond(r)` of R13: end the command with R = r and STATUS = OK. -/
def respond (r : Word) (s : State) : Result := .next (answer r .ok s)

/-- `respond(toWord(n))`: an integer result (R16, R24). -/
def respondInt (n : Int) (s : State) : Result := respond (toWord n) s

/-- `raise IllegalCommand` of R13: STATUS = ILLEGAL_COMMAND and R = 0, A and B ignored, no other
effect (R155). -/
def respondIllegal (s : State) : Result := .next (answer 0#64 .illegalCommand s)

/-- `raise ContractViolation(reason)` of R13: a fault of the model (R157) that records the reason and
the command (R158). -/
def raiseContractViolation (reason : Violation) (s : State) : Result :=
  .fault (.contractViolation reason s.current)

/-- `LutRead(T, i)` of R49: the entry at index i, or a contract violation when i is outside the
table's range (R40). -/
def lutRead (T : Table) (i : Int) (s : State) (k : Word → Result) : Result :=
  if 0 ≤ i ∧ i ≤ lutLast T then k (lutEntry T i.toNat)
  else raiseContractViolation .lutIndex s

/-- The next move is taken off the schedule, and the ports R and STATUS no longer carry the response
of the move before (R31). -/
def advance (s : State) : State := { s with events := s.events.tail, out := none }

/-- The host presents a command: CMD, A and B together on the ports (R22). -/
def present (q : Request) (s : State) : State := { s with current := q }

/-- The engine returns the oldest response, in command order (R176). While `rst` is asserted it returns
none (R178); with nothing in flight it is idle (R180). -/
def deliverOldest (s : State) : State :=
  if s.rst then s
  else
    match s.inFlight with
    | [] => s
    | e :: rest => { s with inFlight := rest, out := some e.response }

/-- `rst` is asserted: every command in flight is discarded and never gets a response (R179). -/
def enterReset (s : State) : State := { s with rst := true, inFlight := [] }

/-- `rst` is released: the engine accepts commands again (R180). -/
def leaveReset (s : State) : State := { s with rst := false }

end Sys2Proof.Machine
end

