-- ==== Sys2Proof/Machine/Operands.lean ====
section
/-! DEFINITION. The operand forms: port A as a word, port B as the signed integer sint(B), and the
preconditions on it (spec/10_state.md R23, spec/30_encoding.md R67, R70, R71). Each `require` is the
pseudocode's (R13): it goes on with the checked value or raises the contract violation. -/
namespace Sys2Proof.Machine

/-- The word operand: all 64 bits of port A (R23, R70). -/
def operandA (s : State) : Word := s.current.a

/-- The integer operand: sint(B) over all 64 bits of port B (R23, R70). -/
def operandB (s : State) : Int := sint s.current.b

/-- `require 0 <= i <= 63 else ContractViolation(reason)` (R71; R81, R105). -/
def requireIndex (reason : Violation) (s : State) (k : Nat → Result) : Result :=
  if 0 ≤ operandB s ∧ operandB s ≤ 63 then k (operandB s).toNat
  else raiseContractViolation reason s

/-- `require b = 0 or b = 1 else ContractViolation("bit value")` (R71, R96). -/
def requireBitValue (s : State) (k : Bool → Result) : Result :=
  if operandB s = 0 ∨ operandB s = 1 then k (decide (operandB s = 1))
  else raiseContractViolation .bitValue s

/-- `require k >= 0 else ContractViolation("negative select rank")` (R71, R123). -/
def requireRank (s : State) (k : Nat → Result) : Result :=
  if 0 ≤ operandB s then k (operandB s).toNat
  else raiseContractViolation .negativeSelectRank s

end Sys2Proof.Machine
end

