-- ==== Sys2Proof/Machine/BitAccess.lean ====
section
/-! DEFINITION. Bit access and mutation (spec/40_bit_access.md): GET, SET, CLEAR, FLIP. -/
namespace Sys2Proof.Machine

/-- The bit at position i as the word 0 or 1: `zext_64(A[i])` (R82). -/
def bitAt (w : Word) (i : Nat) : Word := (BitVec.ofBool (w.getLsbD i)).setWidth 64

/-- GET (R82). -/
def execGet (s : State) : Result :=
  requireIndex .bitIndex s fun i => respond (bitAt (operandA s) i) s

/-- SET (R83). -/
def execSet (s : State) : Result :=
  requireIndex .bitIndex s fun i => lutRead .bit i s fun m => respond (operandA s ||| m) s

/-- CLEAR (R84). -/
def execClear (s : State) : Result :=
  requireIndex .bitIndex s fun i => lutRead .notBit i s fun m => respond (operandA s &&& m) s

/-- FLIP (R85). -/
def execFlip (s : State) : Result :=
  requireIndex .bitIndex s fun i => lutRead .bit i s fun m => respond (operandA s ^^^ m) s

end Sys2Proof.Machine
end

