-- ==== Sys2Proof/Machine/Counting.lean ====
section
/-! DEFINITION. The counting core (spec/41_popcount.md). `popcount` is the specification function R91,
which every count rule is stated through. The circuit that computes it, `swarPopcount` with its
stages (R93, R99, R100), stands beside it; that the two agree (R94) is a statement, not a definition
(log entry 12). -/
namespace Sys2Proof.Machine

/-- `popcount(v)` of R10 and R91: the number of positions i in [0, 63] with v[i] = 1. -/
def popcount (v : Word) : Nat := (List.range 64).countP fun i => v.getLsbD i

/-- Byte lane j of a word, bits 8j+7 down to 8j (R10, R46). -/
def byteLane (v : Word) (j : Nat) : BitVec 8 := v.extractLsb' (8 * j) 8

/-- M1 of R93 (log entry 12). -/
def maskM1 : Word := 0x5555_5555_5555_5555#64

/-- M2 of R93 (log entry 12). -/
def maskM2 : Word := 0x3333_3333_3333_3333#64

/-- M4 of R93 (log entry 12). -/
def maskM4 : Word := 0x0F0F_0F0F_0F0F_0F0F#64

/-- L8 of R15, R93 and R130. -/
def constL8 : Word := 0x0101_0101_0101_0101#64

/-- `s1` of R93: 32 two-bit counters. -/
def swarPairs (w : Word) : Word := (w &&& maskM1) + ((w >>> 1) &&& maskM1)

/-- `s2` of R93: 16 four-bit counters. -/
def swarNibbles (w : Word) : Word :=
  let s1 := swarPairs w
  (s1 &&& maskM2) + ((s1 >>> 2) &&& maskM2)

/-- `s3` of R93, `byteCounts` of R100: 8 byte counters. -/
def byteCounts (w : Word) : Word :=
  let s2 := swarNibbles w
  (s2 + (s2 >>> 4)) &&& maskM4

/-- `p` of R93, `bytePrefix` of R100: lane j is the count of lanes 0 to j. -/
def bytePrefix (w : Word) : Word := byteCounts w * constL8

/-- `swarPopcount` of R93: the top byte of `p`. -/
def swarPopcount (w : Word) : Word := bytePrefix w >>> 56

end Sys2Proof.Machine
end

