-- ==== Sys2Proof/Machine/LeastSetBit.lean ====
section
/-! DEFINITION. Least set bit (spec/43_least_set_bit.md): LEAST_SET_BIT, LEAST_SET_BIT_INDEX. Neither
reads B. -/
namespace Sys2Proof.Machine

/-- `((A - 1) ^ A) & A` (R116). -/
def isolateLowest (w : Word) : Word := ((w - 1#64) ^^^ w) &&& w

/-- The position of the lowest set bit, −1 for the zero word, which is special-cased (R118, R119). -/
def lowestIndex (w : Word) : Int :=
  if w = 0#64 then -1 else (popcount ((w - 1#64) ^^^ w) : Int) - 1

/-- LEAST_SET_BIT (R116). -/
def execLeastSetBit (s : State) : Result := respond (isolateLowest (operandA s)) s

/-- LEAST_SET_BIT_INDEX (R118). -/
def execLeastSetBitIndex (s : State) : Result := respondInt (lowestIndex (operandA s)) s

end Sys2Proof.Machine
end

