-- ==== Sys2Proof/Machine/PopulationCount.lean ====
section
/-! DEFINITION. Population count (spec/41_popcount.md): COUNT_ONES, COUNT_ZEROS, COUNT_BIT. -/
namespace Sys2Proof.Machine

/-- COUNT_ONES (R92); B is ignored. -/
def execCountOnes (s : State) : Result := respondInt (popcount (operandA s)) s

/-- COUNT_ZEROS (R95); B is ignored. -/
def execCountZeros (s : State) : Result := respondInt (64 - popcount (operandA s)) s

/-- The mask of R96: 0 when b = 1, ALL_ONES when b = 0. -/
def countMask (b : Bool) : Word := if b then 0#64 else allOnes

/-- COUNT_BIT (R96). -/
def execCountBit (s : State) : Result :=
  requireBitValue s fun b => respondInt (popcount (operandA s ^^^ countMask b)) s

end Sys2Proof.Machine
end

