-- ==== Sys2Proof/Machine/Rank.lean ====
section
/-! DEFINITION. The sub-block `rank_prefix_tree` (spec/42_rank.md): RANK1, RANK0, and the equivalent
formulations the spec names (R107, R109, R110), which no command runs through. -/
namespace Sys2Proof.Machine

/-- RANK1 (R106): the set bits among positions 0 to i. -/
def execRank1 (s : State) : Result :=
  requireIndex .rankIndex s fun i =>
    lutRead .lowMask (i + 1) s fun m => respondInt (popcount (operandA s &&& m)) s

/-- RANK0 (R108, C4): the clear bits among positions 0 to i. -/
def execRank0 (s : State) : Result :=
  requireIndex .rankIndex s fun i =>
    lutRead .lowMask (i + 1) s fun m => respondInt ((i + 1) - popcount (operandA s &&& m)) s

/-- The shift formulation of RANK1 (R107). -/
def rank1Shift (w : Word) (i : Nat) : Int := popcount (w <<< (63 - i))

/-- The second form of R109: the set bits of the complement. -/
def rank0Complement (w : Word) (i : Nat) : Int := popcount (~~~w &&& lowMaskEntry (i + 1))

/-- The third form of R109, the high-masked OR datapath of R110. -/
def rank0HighOr (w : Word) (i : Nat) : Int := 64 - popcount (w ||| highMaskEntry (i + 1))

/-- The fourth form of R109: the clear bits of the whole masked word less the 63 − i masked off. -/
def rank0Rebased (w : Word) (i : Nat) : Int :=
  (64 - popcount (w &&& lowMaskEntry (i + 1))) - (63 - i)

/-- The form that R109 and C4 reject: the clear bits of the whole masked word. -/
def rank0Literal (w : Word) (i : Nat) : Int := 64 - popcount (w &&& lowMaskEntry (i + 1))

end Sys2Proof.Machine
end

