-- ==== Sys2Proof/Machine/Select.lean ====
section
/-! DEFINITION. The sub-block `select_byte_parallel` (spec/44_select.md): SELECT1 and SELECT0 by the
normative function `sel1` (R124, R129), and the byte-parallel datapath R130 to R142 beside it, stage by
stage. That the datapath computes `sel1` (R143) is a statement, not a definition (log entry 12). -/
namespace Sys2Proof.Machine

/-- The test of R124 at position p: w[p] = 1 and popcount(w & LOW_MASK[p + 1]) = k + 1. -/
def isKthSet (w : Word) (k p : Nat) : Bool :=
  w.getLsbD p && popcount (w &&& lowMaskEntry (p + 1)) == k + 1

/-- `sel1(w, k)` of R124: when k < popcount(w), the unique position p in [0, 63] that passes
`isKthSet`, and −1 otherwise. (Such a position exists whenever k < popcount(w), R124, so the default
of the search is never used.) -/
def sel1 (w : Word) (k : Nat) : Int :=
  if k < popcount w then
    match (List.range 64).find? (isKthSet w k) with
    | some p => p
    | none => -1
  else -1

/-- SELECT1 (R125). -/
def execSelect1 (s : State) : Result :=
  requireRank s fun k => respondInt (sel1 (operandA s) k) s

/-- SELECT0 (R126). -/
def execSelect0 (s : State) : Result :=
  requireRank s fun k => respondInt (sel1 (~~~(operandA s)) k) s

/-- H8 of R130: the high bit of every lane (C7; log entry 12). -/
def constH8 : Word := 0x8080_8080_8080_8080#64

/-- DIAG of R130: lane j keeps only bit j (log entry 12). -/
def constDIAG : Word := 0x8040_2010_0804_0201#64

/-- `leq8(x, y)` of R132: byte-parallel x ≤ y, for lanes below 128. -/
def leq8 (x y : Word) : Word :=
  (((y ||| constH8) - (x &&& ~~~constH8)) ^^^ x ^^^ y) &&& constH8

/-- `nz8(x)` of R133: byte-parallel x ≠ 0. -/
def nz8 (x : Word) : Word := (((x ||| constH8) - constL8) ||| x) &&& constH8

/-- The number of true lanes of a lane mask: `((C >> 7) * L8) >> 56` (R135, R138). -/
def trueLanes (c : Word) : Nat := (((c >>> 7) * constL8) >>> 56).toNat

/-- `b` of R134 and R135, in {0, 8, ..., 64}: the bit offset of the byte that holds the answer. -/
def selectByteOffset (w : Word) (k : Nat) : Nat :=
  8 * trueLanes (leq8 (bytePrefix w) (BitVec.ofNat 64 k * constL8))

/-- `l` of R136: the rank of the answer within its byte. -/
def selectResidual (w : Word) (k b : Nat) : Int :=
  k - (((bytePrefix w <<< 8) >>> b) &&& 0xFF#64).toNat

/-- `T` of R137: lane j is the number of set bits of the byte y at positions 0 to j. -/
def inByteCounts (y : Word) : Word := (nz8 ((y * constL8) &&& constDIAG) >>> 7) * constL8

/-- `o` of R138: the position of the l-th set bit within the byte at offset b. -/
def selectInByte (w : Word) (b : Nat) (l : Int) : Nat :=
  trueLanes (leq8 (inByteCounts ((w >>> b) &&& 0xFF#64)) (toWord l * constL8))

/-- `selectDatapath(w, k)` of R142, with the range guard R141 and not-found at b = 64 (R140, C2). -/
def selectDatapath (w : Word) (k : Nat) : Int :=
  if k ≥ 64 then -1
  else
    let b := selectByteOffset w k
    if b = 64 then -1
    else b + selectInByte w b (selectResidual w k b)

end Sys2Proof.Machine
end

