-- ==== Sys2Proof/Machine/TableRead.lean ====
section
/-! DEFINITION. Table reads (spec/45_lut_read.md): LUT_BIT, LUT_NOT_BIT, LUT_LOW_MASK, LUT_HIGH_MASK.
They ignore A; the range of the index is the table's (R49). -/
namespace Sys2Proof.Machine

/-- LUT_BIT (R146). -/
def execLutBit (s : State) : Result := lutRead .bit (operandB s) s fun m => respond m s

/-- LUT_NOT_BIT (R147). -/
def execLutNotBit (s : State) : Result := lutRead .notBit (operandB s) s fun m => respond m s

/-- LUT_LOW_MASK (R148). -/
def execLutLowMask (s : State) : Result := lutRead .lowMask (operandB s) s fun m => respond m s

/-- LUT_HIGH_MASK (R149, C1). -/
def execLutHighMask (s : State) : Result := lutRead .highMask (operandB s) s fun m => respond m s

end Sys2Proof.Machine
end

