-- ==== Sys2Proof/Machine/Dispatch.lean ====
section
/-! DEFINITION. One arm per command, each the direct call of its meaning. -/
namespace Sys2Proof.Machine

def exec (i : Instr) (s : State) : Host.Outcome State Fault Refusal :=
  match i with
  | .get => Sys2Proof.Machine.execGet s
  | .set => Sys2Proof.Machine.execSet s
  | .clear => Sys2Proof.Machine.execClear s
  | .flip => Sys2Proof.Machine.execFlip s
  | .countOnes => Sys2Proof.Machine.execCountOnes s
  | .countZeros => Sys2Proof.Machine.execCountZeros s
  | .countBit => Sys2Proof.Machine.execCountBit s
  | .rank1 => Sys2Proof.Machine.execRank1 s
  | .rank0 => Sys2Proof.Machine.execRank0 s
  | .leastSetBit => Sys2Proof.Machine.execLeastSetBit s
  | .leastSetBitIndex => Sys2Proof.Machine.execLeastSetBitIndex s
  | .select1 => Sys2Proof.Machine.execSelect1 s
  | .select0 => Sys2Proof.Machine.execSelect0 s
  | .lutBit => Sys2Proof.Machine.execLutBit s
  | .lutNotBit => Sys2Proof.Machine.execLutNotBit s
  | .lutLowMask => Sys2Proof.Machine.execLutLowMask s
  | .lutHighMask => Sys2Proof.Machine.execLutHighMask s

end Sys2Proof.Machine
end

