-- ==== Sys2Proof/Machine/Transaction.lean ====
section
/-! DEFINITION. One move of one agent (spec/30_encoding.md R60, spec/70_reset_and_hazards.md R176 to
R180, R189), which `step` calls. -/
namespace Sys2Proof.Machine

/-- The command on the ports runs: it is decoded from CMD alone (R68, R160), and is answered as its
rule says, or with the illegal-command response (R155). -/
def runCommand (s : State) : Result :=
  match decode s.current.cmd with
  | .legal i => exec i s
  | .illegal _ => respondIllegal s

/-- The host presents the command q (R189). Outside reset it is accepted and its response fixed
(R176); while `rst` is asserted it has no specified effect (R178, R189, U20). -/
def issueCommand (q : Request) (s : State) : Result :=
  if s.rst then .refused (.commandInReset q) else runCommand (present q s)

/-- One move. -/
def takeEvent (e : Event) (s : State) : Result :=
  match e with
  | .issue q => issueCommand q s
  | .deliver => .next (deliverOldest s)
  | .assertReset => .next (enterReset s)
  | .releaseReset => .next (leaveReset s)

/-- Which move is next: the oldest of the schedule; after its end the engine goes on returning the
responses it owes (R170, R176; log entry 9). -/
def nextEvent (s : State) : Event := s.events.headD .deliver

end Sys2Proof.Machine
end

