-- ==== Sys2Proof/Machine/Step.lean ====
section
/-! DEFINITION. One step of the machine: one move of one agent, taken from the schedule. The engine has
no program counter and fetches nothing (spec/10_state.md R29, spec/20_memory.md R58): a command arrives
on the ports from the host. -/
namespace Sys2Proof.Machine

/-- One step. -/
def step (s : State) : Host.Outcome State Fault Refusal := takeEvent (nextEvent s) (advance s)

/-- The host's next move, outside reset, is to issue the command word w, with A and B as the ports
hold them. This stands for the host issuing a command (log entry 7). -/
def State.withFetchWord (s : State) (nbits w : Nat) : State :=
  { s with
      rst := false
      events := .issue { s.current with cmd := BitVec.ofNat 32 (w % 2 ^ nbits) } :: s.events }

end Sys2Proof.Machine
end

