-- ==== Sys2Proof/Machine/Engine.lean ====
section
/-! DEFINITION. What the ENGINE may do, beside what the model's `step` says. The two differ in one place:
after a contract violation the engine goes on with STATUS = OK and an R that nothing constrains
(spec/60_exceptions.md R156), while a model faults (R157). `EngineStep` is a relation, so that R stays
open: two identical violating commands may get different values (log entry 1). -/
namespace Sys2Proof.Machine

/-- The engine may go from s to t in one move. Where `step` answers, that answer is the engine's only
one; where `step` faults, the engine answers the violating command with any word (R156); a command
in breach of the host's duties has no move (U20). -/
def EngineStep (s t : State) : Prop :=
  match step s with
  | .next t' => t = t'
  | .fault (.contractViolation _ q) => ∃ r : Word, t = answer r .ok (present q (advance s))
  | .refused _ => False

end Sys2Proof.Machine
end

