-- ==== Sys2Proof/Machine/Flags.lean ====
section
/-! DEFINITION. The engine has no flags, condition codes or predicates (spec/10_state.md R30), so there
is no flag computation. What a response carries beside R is STATUS, and its two-bit codes (R25, R158)
stand here. -/
namespace Sys2Proof.Machine

/-- The value on port STATUS (R25): 0b00 OK, 0b01 ILLEGAL_COMMAND. -/
def statusCode : Status → BitVec 2
  | .ok => 0b00#2
  | .illegalCommand => 0b01#2

end Sys2Proof.Machine
end

