-- ==== Sys2Proof/Safety.lean ====
section
/-! DEFINITION. The terms claims are stated in: the caller contracts (spec/30_encoding.md R71,
spec/60_exceptions.md R157), what a right answer is, said position by position and without the
circuits or the tables, the invariant of every step, and what a run returns. -/
namespace Sys2Proof.Safety

open Sys2Proof.Machine

/-- The precondition of each command on n = sint(B): the table of R71 (and R157, its complement). -/
def inContract (i : Instr) (n : Int) : Bool :=
  match i with
  | .get | .set | .clear | .flip => decide (0 ≤ n ∧ n ≤ 63)
  | .countOnes | .countZeros | .leastSetBit | .leastSetBitIndex => true
  | .countBit => decide (n = 0 ∨ n = 1)
  | .rank1 | .rank0 => decide (0 ≤ n ∧ n ≤ 63)
  | .select1 | .select0 => decide (0 ≤ n)
  | .lutBit | .lutNotBit => decide (0 ≤ n ∧ n ≤ 63)
  | .lutLowMask | .lutHighMask => decide (0 ≤ n ∧ n ≤ 64)

/-- The column "reason" of R157; `none` for the commands without a precondition. -/
def violationReason (i : Instr) : Option Violation :=
  match i with
  | .get | .set | .clear | .flip => some .bitIndex
  | .countOnes | .countZeros | .leastSetBit | .leastSetBitIndex => none
  | .countBit => some .bitValue
  | .rank1 | .rank0 => some .rankIndex
  | .select1 | .select0 => some .negativeSelectRank
  | .lutBit | .lutNotBit | .lutLowMask | .lutHighMask => some .lutIndex

/-- The set positions of a word (R9, R15). -/
def setPositions (w : Word) : Finset Nat := (Finset.range 64).filter fun j => w.getLsbD j = true

/-- The clear positions of a word (R15). -/
def clearPositions (w : Word) : Finset Nat := (Finset.range 64).filter fun j => w.getLsbD j = false

/-- p is the lowest set position of w (R120). -/
def IsLowestSet (w : Word) (p : Nat) : Prop :=
  p < 64 ∧ w.getLsbD p = true ∧ ∀ j < p, w.getLsbD j = false

/-- r is the k-th member of a set of positions, or the not-found sentinel when there are at most k
(R15, R123, R127). -/
def IsKthOf (ps : Finset Nat) (k : Nat) (r : Word) : Prop :=
  (ps.card ≤ k ∧ r = allOnes) ∨ (r.toNat ∈ ps ∧ (ps.filter (· < r.toNat)).card = k)

/-- What R must be for an in-contract command with A = a and sint(B) = n, read from the glossary and
the operations' own sentences: R15, R82 to R85, R91, R95, R96, R106, R108, R116 to R120, R123 to R127,
R34 to R37. -/
def Answers (i : Instr) (a : Word) (n : Int) (r : Word) : Prop :=
  match i with
  | .get => r.toNat = if a.getLsbD n.toNat then 1 else 0
  | .set => ∀ j < 64, r.getLsbD j = (decide (j = n.toNat) || a.getLsbD j)
  | .clear => ∀ j < 64, r.getLsbD j = (decide (j ≠ n.toNat) && a.getLsbD j)
  | .flip => ∀ j < 64, r.getLsbD j = (decide (j = n.toNat) ^^ a.getLsbD j)
  | .countOnes => r.toNat = (setPositions a).card
  | .countZeros => r.toNat = (clearPositions a).card
  | .countBit => r.toNat = (if n = 1 then setPositions a else clearPositions a).card
  | .rank1 => r.toNat = ((setPositions a).filter (· ≤ n.toNat)).card
  | .rank0 => r.toNat = ((clearPositions a).filter (· ≤ n.toNat)).card
  | .leastSetBit =>
    (a = 0#64 ∧ r = 0#64) ∨ ∃ p, IsLowestSet a p ∧ ∀ j < 64, r.getLsbD j = decide (j = p)
  | .leastSetBitIndex => (a = 0#64 ∧ r = allOnes) ∨ IsLowestSet a r.toNat
  | .select1 => IsKthOf (setPositions a) n.toNat r
  | .select0 => IsKthOf (clearPositions a) n.toNat r
  | .lutBit => ∀ j < 64, r.getLsbD j = decide (j = n.toNat)
  | .lutNotBit => ∀ j < 64, r.getLsbD j = decide (j ≠ n.toNat)
  | .lutLowMask => ∀ j < 64, r.getLsbD j = decide (j < n.toNat)
  | .lutHighMask => ∀ j < 64, r.getLsbD j = decide (n.toNat ≤ j)

/-- The engine may answer the request q with x: an illegal command word gets ILLEGAL_COMMAND and R = 0
(R155); a legal one gets OK, and in contract the right R; out of contract R is open (R156). The
response goes to the host that issued the command (R171). -/
def ResponseAllowed (q : Request) (x : Response) : Prop :=
  x.host = q.host ∧
  (wfCommandWord q.cmd = false → x.status = .illegalCommand ∧ x.r = 0#64) ∧
  ∀ i, q.cmd = encode i →
    x.status = .ok ∧ (inContract i (sint q.b) = true → Answers i q.a (sint q.b) x.r)

/-- A command that can be answered: its word is illegal, or its operand is in contract. -/
def requestInContract (q : Request) : Bool :=
  match decode q.cmd with
  | .legal i => inContract i (sint q.b)
  | .illegal _ => true

/-- The invariant of every step: in reset nothing is in flight and nothing is returned (R178, R179),
and every response the engine owes is one it may give (R176). -/
def Inv (s : State) : Prop :=
  (s.rst = true → s.inFlight = [] ∧ s.out = none) ∧
  ∀ e ∈ s.inFlight, ResponseAllowed e.request e.response

/-- The response a command gets when it is issued alone, to the engine as reset leaves it (R55);
`none` where the model faults. -/
def responseAlone (q : Request) : Option Response :=
  match step { State.reset with events := [.issue q] } with
  | .next t => t.inFlight.head?.map (·.response)
  | _ => none

/-- The responses returned in the next k steps, oldest first. -/
def returned : Nat → State → List Response
  | 0, _ => []
  | k + 1, s =>
    match step s with
    | .next t => t.out.toList ++ returned k t
    | _ => []

/-- What the move of the step from s to t says of the last command issued: whether the host has now
received its response, when `before` says it of s. A new command's response is still to come; responses
return in command order (R176), so the return that empties the FIFO is that of the last command; reset
returns nothing (R179). -/
def answeredAfter (s t : State) (before : Bool) : Bool :=
  match nextEvent s with
  | .issue _ => false
  | .deliver => before || (t.out.isSome && t.inFlight.isEmpty)
  | .assertReset => before
  | .releaseReset => before

/-- After k steps from s, the host has received the response of the last command issued. -/
def lastAnswered : Nat → State → Bool → Bool
  | 0, _, before => before
  | k + 1, s, before =>
    match step s with
    | .next t => lastAnswered k t (answeredAfter s t before)
    | _ => false

/-- R188: after k steps from s the run of the host has ended. The host has issued its last command,
received that command's response, and nothing is in flight. A run whose last command was discarded by
reset has not ended (R179: the host must issue it again), one with a contract violation has no end
(R157), and one that issues and owes nothing has no last command (log entry 16). -/
def Finished (k : Nat) (s : State) : Prop :=
  ∃ t : State, core.run k s = .next t ∧ (∀ q, .issue q ∉ t.events) ∧ t.inFlight = [] ∧
    lastAnswered k s false = true

/-- The commands that a schedule issues, oldest first. -/
def issuedBy (es : List Event) : List Request :=
  es.filterMap fun e => match e with
    | .issue q => some q
    | _ => none

/-- R of a command issued with the given operands to the engine as reset leaves it, when it is in
contract: the commands as functions, for the laws of the spec. -/
def resultOf (i : Instr) (a b : Word) : Option Word :=
  (responseAlone { host := 0, cmd := encode i, a := a, b := b }).map (·.r)

/-- The command i, issued alone with A = a and B = b, answers R = r. -/
def Gives (i : Instr) (a b r : Word) : Prop := resultOf i a b = some r

/-- Port B as it is driven for the integer argument n (R70, R72). -/
def arg (n : Nat) : Word := toWord n

/-- The frame of every response (R20, R26, R41, R155, R156, R176): the command on the ports enters the FIFO
with its response, behind what is in flight, and nothing else changes. -/
def afterResponse (s : State) (r : Word) (x : Status) : State :=
  { s with inFlight := s.inFlight ++
      [{ request := s.current, response := { host := s.current.host, r := r, status := x } }] }

/-- The state in which the command q runs, when the host issues it as the next move of s: the move is
taken off the schedule, the response ports carry nothing, and q is on the ports. -/
def presented (s : State) (q : Request) : State :=
  { s with events := s.events.tail, out := none, current := q }

end Sys2Proof.Safety
end

