-- ==== Sys2Proof/Certificates/Slice0/Obligations.lean ====
section
/-! DEFINITION. The statements for the provers. `Safety` holds their vocabulary: the caller contracts
(`inContract`), the answers said position by position (`Answers`), the frame of a response
(`afterResponse`), and commands as functions (`Gives`). Every statement about a command says which next
state it answers, and so its frame: no field but the FIFO changes. -/

open Sys2Proof Sys2Proof.Machine Sys2Proof.Safety

/-! Encoding -/

/-- R64, one word of each family of the opcode map, written out from the table. -/
def Obligations.CommandWordsDecode : Prop :=
  decode 0x0000_0001#32 = .legal .get ∧ decode 0x0000_0007#32 = .legal .countBit ∧
  decode 0x0000_0009#32 = .legal .rank0 ∧ decode 0x0000_000B#32 = .legal .leastSetBitIndex ∧
  decode 0x0000_000C#32 = .legal .select1 ∧ decode 0x0000_0013#32 = .legal .lutHighMask

/-- R61, R63, R64, R73: among all 2^32 words, exactly the command's own word decodes to it. -/
def Obligations.DecodeIffEncode : Prop :=
  ∀ (cmd : CmdWord) (i : Instr), decode cmd = .legal i ↔ cmd = encode i

/-- R63: total decoding by the reserved field and the 17 opcodes, `wfCommandWord` saying legality on
the number alone. -/
def Obligations.DecodeRejectsExactlyIllegal : Prop :=
  ∀ cmd : CmdWord,
    ((∃ i, decode cmd = .legal i) ↔
      cmd.toNat / 32 = 0 ∧ cmd.toNat % 32 ∈
        [0x01, 0x02, 0x03, 0x04, 0x05, 0x06, 0x07, 0x08, 0x09, 0x0A, 0x0B, 0x0C, 0x0D,
          0x10, 0x11, 0x12, 0x13]) ∧
    ((∃ e, decode cmd = .illegal e) ↔ wfCommandWord cmd = false)

/-! Steps -/

/-- R60, R22, R189: when the host's next move issues a command whose word decodes to i, outside reset,
the step is exec of i with the command on the ports. Around exec, the step takes the move off the
schedule and drives the ports (`presented`). -/
def Obligations.StepRunsDecodedCommand : Prop :=
  ∀ (s : State) (q : Request) (es : List Event) (i : Instr),
    s.events = .issue q :: es → s.rst = false → decode q.cmd = .legal i →
      step s = exec i (presented s q)

/-- R155. -/
def Obligations.IllegalCommandResponse : Prop :=
  ∀ (s : State) (q : Request) (es : List Event) (e : Illegal),
    s.events = .issue q :: es → s.rst = false → decode q.cmd = .illegal e →
      step s = .next (afterResponse (presented s q) 0#64 .illegalCommand) ∧
      statusCode .illegalCommand = 0b01#2 ∧
      ∀ (q' : Request) (es' : List Event) (x : Response),
        es = .issue q' :: es' → responseAlone q' = some x →
          core.run 2 s = .next { s with
            events := es'
            out := none
            current := q'
            inFlight := s.inFlight ++
              [{ request := q, response := { host := q.host, r := 0#64, status := .illegalCommand } },
               { request := q', response := x }] }

/-- R65. -/
def Obligations.ReservedOpcodesAreIllegal : Prop :=
  ∀ (s : State) (q : Request) (es : List Event),
    s.events = .issue q :: es → s.rst = false →
    q.cmd.toNat % 32 ∈ [0x00, 0x0E, 0x0F, 0x14, 0x15, 0x16, 0x17, 0x18, 0x19, 0x1A, 0x1B, 0x1C, 0x1D,
      0x1E, 0x1F] →
      step s = .next (afterResponse (presented s q) 0#64 .illegalCommand)

/-- R66. -/
def Obligations.ReservedBitsAreIllegal : Prop :=
  ∀ (s : State) (q : Request) (es : List Event) (n : Nat),
    s.events = .issue q :: es → s.rst = false → 5 ≤ n → q.cmd.getLsbD n = true →
      step s = .next (afterResponse (presented s q) 0#64 .illegalCommand)

/-! Reset -/

/-- R180, R181: the engine is idle after reset: nothing in flight, reset released, ready for a first
command, whose response is then the only one in flight. The rendering of the unspecified R and STATUS as
`none` is the model's (log entry 4). -/
def Obligations.ResetLeavesEngineIdle : Prop :=
  State.reset.inFlight = [] ∧ State.reset.rst = false ∧ State.reset.out = none ∧
  step State.reset = .next State.reset ∧
  ∀ q : Request, requestInContract q = true →
    ∃ x t, step { State.reset with events := [.issue q] } = .next t ∧
      t.inFlight = [{ request := q, response := x }]

/-- R179: what is in flight when reset is asserted is discarded, nothing records it (the next state holds
nothing of it), and no response is returned until a new command is issued. -/
def Obligations.ResetDiscardsInFlight : Prop :=
  ∀ (s : State) (es : List Event), s.events = .assertReset :: es →
    step s = .next { s with events := es, rst := true, inFlight := [], out := none } ∧
    ∀ k, (∀ q, Event.issue q ∉ es) →
      returned k { s with events := es, rst := true, inFlight := [], out := none } = []

/-- R178: while `rst` is asserted no command is accepted and no response returned. That a command
presented then is refused by name is the model's (log entry 6). -/
def Obligations.NothingHappensDuringReset : Prop :=
  ∀ s : State, s.rst = true →
    (∀ q es, s.events = .issue q :: es → step s = .refused (.commandInReset q)) ∧
    ((∀ q es, s.events ≠ .issue q :: es) →
      ∃ t, step s = .next t ∧ t.out = none ∧ (t.inFlight = s.inFlight ∨ t.inFlight = []) ∧
        (s.events.head? ≠ some .releaseReset → t.rst = true))

/-- R180, R189: when reset is released the engine is idle, with nothing in flight and nothing returned
(`none` is log entry 4's rendering), and ready for its first command: a command that has a response is
then the only one in flight. -/
def Obligations.ReleaseLeavesEngineIdle : Prop :=
  ∀ (s : State) (es : List Event), Inv s → s.rst = true → s.events = .releaseReset :: es →
    step s = .next { s with events := es, rst := false, out := none } ∧ s.inFlight = [] ∧
    ∀ (q : Request) (es' : List Event) (x : Response),
      es = .issue q :: es' → responseAlone q = some x →
        core.run 2 s = .next { s with
          events := es'
          rst := false
          out := none
          current := q
          inFlight := [{ request := q, response := x }] }

/-! The commands, one statement each: the word, the response, the frame, and the contract -/

/-- R82. -/
def Obligations.GetReadsBit : Prop :=
  encode .get = 0x0000_0001#32 ∧
  ∀ s : State,
    (0 ≤ sint s.current.b ∧ sint s.current.b ≤ 63 →
      exec .get s = .next (afterResponse s
        (if s.current.a.getLsbD (sint s.current.b).toNat then 1#64 else 0#64) .ok)) ∧
    (sint s.current.b < 0 ∨ 63 < sint s.current.b →
      exec .get s = .fault (.contractViolation .bitIndex s.current))

/-- R83. -/
def Obligations.SetForcesBitToOne : Prop :=
  encode .set = 0x0000_0002#32 ∧
  ∀ s : State,
    (0 ≤ sint s.current.b ∧ sint s.current.b ≤ 63 →
      exec .set s = .next (afterResponse s
        (s.current.a ||| 1#64 <<< (sint s.current.b).toNat) .ok)) ∧
    (sint s.current.b < 0 ∨ 63 < sint s.current.b →
      exec .set s = .fault (.contractViolation .bitIndex s.current))

/-- R84. -/
def Obligations.ClearForcesBitToZero : Prop :=
  encode .clear = 0x0000_0003#32 ∧
  ∀ s : State,
    (0 ≤ sint s.current.b ∧ sint s.current.b ≤ 63 →
      exec .clear s = .next (afterResponse s
        (s.current.a &&& ~~~(1#64 <<< (sint s.current.b).toNat)) .ok)) ∧
    (sint s.current.b < 0 ∨ 63 < sint s.current.b →
      exec .clear s = .fault (.contractViolation .bitIndex s.current))

/-- R85. -/
def Obligations.FlipInvertsBit : Prop :=
  encode .flip = 0x0000_0004#32 ∧
  ∀ s : State,
    (0 ≤ sint s.current.b ∧ sint s.current.b ≤ 63 →
      exec .flip s = .next (afterResponse s
        (s.current.a ^^^ 1#64 <<< (sint s.current.b).toNat) .ok)) ∧
    (sint s.current.b < 0 ∨ 63 < sint s.current.b →
      exec .flip s = .fault (.contractViolation .bitIndex s.current))

/-- R92: no precondition, B ignored. -/
def Obligations.CountOnesCountsSetPositions : Prop :=
  encode .countOnes = 0x0000_0005#32 ∧
  ∀ s : State, exec .countOnes s =
    .next (afterResponse s (toWord (setPositions s.current.a).card) .ok)

/-- R95: no precondition, B ignored; both implementations the source allows. -/
def Obligations.CountZerosCountsClearPositions : Prop :=
  encode .countZeros = 0x0000_0006#32 ∧
  ∀ s : State,
    exec .countZeros s =
      .next (afterResponse s (toWord (64 - (setPositions s.current.a).card)) .ok) ∧
    exec .countZeros s =
      .next (afterResponse s (toWord (setPositions (~~~s.current.a)).card) .ok)

/-- R96. -/
def Obligations.CountBitCountsOccurrences : Prop :=
  encode .countBit = 0x0000_0007#32 ∧
  ∀ s : State,
    (sint s.current.b = 1 → exec .countBit s =
      .next (afterResponse s (toWord (setPositions (s.current.a ^^^ 0#64)).card) .ok)) ∧
    (sint s.current.b = 0 → exec .countBit s =
      .next (afterResponse s (toWord (setPositions (s.current.a ^^^ allOnes)).card) .ok)) ∧
    (sint s.current.b ≠ 0 ∧ sint s.current.b ≠ 1 →
      exec .countBit s = .fault (.contractViolation .bitValue s.current))

/-- R106: the set bits among positions 0 to i. -/
def Obligations.Rank1CountsSetPrefix : Prop :=
  encode .rank1 = 0x0000_0008#32 ∧
  ∀ s : State,
    (0 ≤ sint s.current.b ∧ sint s.current.b ≤ 63 →
      exec .rank1 s = .next (afterResponse s
        (toWord ((setPositions s.current.a).filter (· ≤ (sint s.current.b).toNat)).card) .ok)) ∧
    (sint s.current.b < 0 ∨ 63 < sint s.current.b →
      exec .rank1 s = .fault (.contractViolation .rankIndex s.current))

/-- R108: the clear bits among positions 0 to i, which is (i + 1) less the set ones. -/
def Obligations.Rank0CountsClearPrefix : Prop :=
  encode .rank0 = 0x0000_0009#32 ∧
  ∀ s : State,
    (0 ≤ sint s.current.b ∧ sint s.current.b ≤ 63 →
      exec .rank0 s = .next (afterResponse s (toWord ((sint s.current.b + 1) -
        ((setPositions s.current.a).filter (· ≤ (sint s.current.b).toNat)).card)) .ok) ∧
      exec .rank0 s = .next (afterResponse s
        (toWord ((clearPositions s.current.a).filter (· ≤ (sint s.current.b).toNat)).card) .ok)) ∧
    (sint s.current.b < 0 ∨ 63 < sint s.current.b →
      exec .rank0 s = .fault (.contractViolation .rankIndex s.current))

/-- R116: no precondition, B ignored. -/
def Obligations.LeastSetBitIsolatesLowest : Prop :=
  encode .leastSetBit = 0x0000_000A#32 ∧
  ∀ s : State, exec .leastSetBit s =
    .next (afterResponse s (((s.current.a - 1#64) ^^^ s.current.a) &&& s.current.a) .ok)

/-- R118: no precondition, B ignored; the zero word is special-cased. -/
def Obligations.LeastSetBitIndexOfLowest : Prop :=
  encode .leastSetBitIndex = 0x0000_000B#32 ∧
  ∀ s : State,
    (s.current.a = 0#64 →
      exec .leastSetBitIndex s = .next (afterResponse s allOnes .ok)) ∧
    (s.current.a ≠ 0#64 →
      exec .leastSetBitIndex s = .next (afterResponse s
        (toWord ((setPositions ((s.current.a - 1#64) ^^^ s.current.a)).card - 1)) .ok))

/-- R124, R125: the unique set position whose rank is k + 1, or not found. -/
def Obligations.Select1FindsKthSet : Prop :=
  encode .select1 = 0x0000_000C#32 ∧
  ∀ s : State,
    (0 ≤ sint s.current.b ∧ sint s.current.b < (setPositions s.current.a).card →
      ∃ p ∈ setPositions s.current.a,
        ((setPositions s.current.a).filter (· ≤ p)).card = sint s.current.b + 1 ∧
        (∀ p' ∈ setPositions s.current.a,
          ((setPositions s.current.a).filter (· ≤ p')).card = sint s.current.b + 1 → p' = p) ∧
        exec .select1 s = .next (afterResponse s (toWord p) .ok)) ∧
    (0 ≤ sint s.current.b ∧ (setPositions s.current.a).card ≤ sint s.current.b →
      exec .select1 s = .next (afterResponse s allOnes .ok)) ∧
    (sint s.current.b < 0 →
      exec .select1 s = .fault (.contractViolation .negativeSelectRank s.current))

/-- R126: select of the complement, position by position: the unique clear position with k clear
positions below it, or not found. -/
def Obligations.Select0FindsKthClear : Prop :=
  encode .select0 = 0x0000_000D#32 ∧
  ∀ s : State,
    (0 ≤ sint s.current.b ∧ sint s.current.b < (clearPositions s.current.a).card →
      ∃ p ∈ clearPositions s.current.a,
        ((clearPositions s.current.a).filter (· < p)).card = sint s.current.b ∧
        exec .select0 s = .next (afterResponse s (toWord p) .ok)) ∧
    (0 ≤ sint s.current.b ∧ (clearPositions s.current.a).card ≤ sint s.current.b →
      exec .select0 s = .next (afterResponse s allOnes .ok)) ∧
    (sint s.current.b < 0 →
      exec .select0 s = .fault (.contractViolation .negativeSelectRank s.current))

/-- R34, R146: A ignored. -/
def Obligations.LutBitReadsEntry : Prop :=
  encode .lutBit = 0x0000_0010#32 ∧
  ∀ s : State,
    (0 ≤ sint s.current.b ∧ sint s.current.b ≤ 63 →
      exec .lutBit s = .next (afterResponse s (1#64 <<< (sint s.current.b).toNat) .ok)) ∧
    (sint s.current.b < 0 ∨ 63 < sint s.current.b →
      exec .lutBit s = .fault (.contractViolation .lutIndex s.current))

/-- R35, R147: A ignored. -/
def Obligations.LutNotBitReadsEntry : Prop :=
  encode .lutNotBit = 0x0000_0011#32 ∧
  ∀ s : State,
    (0 ≤ sint s.current.b ∧ sint s.current.b ≤ 63 →
      exec .lutNotBit s = .next (afterResponse s (~~~(1#64 <<< (sint s.current.b).toNat)) .ok)) ∧
    (sint s.current.b < 0 ∨ 63 < sint s.current.b →
      exec .lutNotBit s = .fault (.contractViolation .lutIndex s.current))

/-- R36, R148: A ignored; index 64 is an entry. -/
def Obligations.LutLowMaskReadsEntry : Prop :=
  encode .lutLowMask = 0x0000_0012#32 ∧
  ∀ s : State,
    (0 ≤ sint s.current.b ∧ sint s.current.b ≤ 63 →
      exec .lutLowMask s =
        .next (afterResponse s (1#64 <<< (sint s.current.b).toNat - 1#64) .ok)) ∧
    (sint s.current.b = 64 →
      exec .lutLowMask s = .next (afterResponse s allOnes .ok)) ∧
    (sint s.current.b < 0 ∨ 64 < sint s.current.b →
      exec .lutLowMask s = .fault (.contractViolation .lutIndex s.current))

/-- R37, R149, by the equality of R37 with the complement of LOW_MASK: A ignored; index 64 is an
entry. -/
def Obligations.LutHighMaskReadsEntry : Prop :=
  encode .lutHighMask = 0x0000_0013#32 ∧
  ∀ s : State,
    (0 ≤ sint s.current.b ∧ sint s.current.b ≤ 63 →
      exec .lutHighMask s =
        .next (afterResponse s (~~~(1#64 <<< (sint s.current.b).toNat - 1#64)) .ok)) ∧
    (sint s.current.b = 64 →
      exec .lutHighMask s = .next (afterResponse s 0#64 .ok)) ∧
    (sint s.current.b < 0 ∨ 64 < sint s.current.b →
      exec .lutHighMask s = .fault (.contractViolation .lutIndex s.current))

/-! Outcomes -/

/-- R153, R157: a command answers a next state exactly in contract; out of contract it faults with the
reason the table of R157 gives it, and records the command (R158). -/
def Obligations.AnswersExactlyInContract : Prop :=
  ∀ (i : Instr) (s : State),
    (inContract i (sint s.current.b) = true → ∃ r, exec i s = .next (afterResponse s r .ok)) ∧
    (inContract i (sint s.current.b) = false →
      ∃ v, violationReason i = some v ∧ exec i s = .fault (.contractViolation v s.current))

/-- R156, R160, R170: the only step that faults issues a legal command whose operand is out of contract,
and the only step that is refused issues a command during reset. -/
def Obligations.StepStopsOnlyOnViolation : Prop :=
  ∀ s : State,
    (∀ f, step s = .fault f → ∃ q es i v, s.events = .issue q :: es ∧ s.rst = false ∧
      decode q.cmd = .legal i ∧ inContract i (sint q.b) = false ∧ violationReason i = some v ∧
      f = .contractViolation v q) ∧
    (∀ r, step s = .refused r → ∃ q es, s.events = .issue q :: es ∧ s.rst = true ∧
      r = .commandInReset q)

/-- R156: the engine answers a violating command with STATUS = OK and any word whatever, and the
violation has no other effect. -/
def Obligations.ViolationLeavesOnlyResultOpen : Prop :=
  ∀ (s : State) (q : Request) (es : List Event) (i : Instr),
    s.events = .issue q :: es → s.rst = false → decode q.cmd = .legal i →
    inContract i (sint q.b) = false →
      ∀ t, EngineStep s t ↔ ∃ r, t = afterResponse (presented s q) r .ok

/-- R67: an operand that a command ignores does not change its response, R and STATUS both. -/
def Obligations.IgnoredOperandsDoNotMatter : Prop :=
  (∀ i ∈ [Instr.countOnes, .countZeros, .leastSetBit, .leastSetBitIndex],
    ∀ (h : Nat) (a b b' : Word), ∃ x,
      responseAlone { host := h, cmd := encode i, a := a, b := b } = some x ∧
      responseAlone { host := h, cmd := encode i, a := a, b := b' } = some x) ∧
  (∀ i ∈ [Instr.lutBit, .lutNotBit, .lutLowMask, .lutHighMask], ∀ (h : Nat) (a a' b : Word),
    responseAlone { host := h, cmd := encode i, a := a, b := b } =
      responseAlone { host := h, cmd := encode i, a := a', b := b })

/-- R18, R26: whatever else two states hold, the same command gets the same response, or violates its
contract, in both; and R and STATUS depend on its CMD, A and B only, so not on the host that issued it. -/
def Obligations.ResponseDependsOnCommandOnly : Prop :=
  (∀ (s : State) (q : Request) (es : List Event), s.events = .issue q :: es → s.rst = false →
    (∃ x, responseAlone q = some x ∧ step s = .next { presented s q with
      inFlight := s.inFlight ++ [{ request := q, response := x }] }) ∨
    (∃ v, responseAlone q = none ∧ step s = .fault (.contractViolation v q))) ∧
  ∀ q q' : Request, q.cmd = q'.cmd → q.a = q'.a → q.b = q'.b →
    (responseAlone q).map (fun x => (x.r, x.status)) =
      (responseAlone q').map (fun x => (x.r, x.status))

/-- R17: every integer result is the sentinel −1 or lies in [0, 64], and only the commands that can
find nothing answer the sentinel. -/
def Obligations.IntegerResultsInRange : Prop :=
  ∀ i ∈ [Instr.get, .countOnes, .countZeros, .countBit, .rank1, .rank0, .leastSetBitIndex, .select1,
      .select0],
    ∀ a b r : Word, Gives i a b r →
      (-1 ≤ sint r ∧ sint r ≤ 64) ∧
      (sint r = -1 → i ∈ [Instr.leastSetBitIndex, .select1, .select0])

/-- R15, R82 to R126, R146 to R149: in contract a command answers, its answer is right, said position by
position, and no other word is right. -/
def Obligations.CommandsMeetSpecification : Prop :=
  ∀ (i : Instr) (s : State), inContract i (sint s.current.b) = true →
    ∃ r, exec i s = .next (afterResponse s r .ok) ∧ Answers i s.current.a (sint s.current.b) r ∧
      ∀ r', Answers i s.current.a (sint s.current.b) r' → r' = r

/-! The whole machine -/

/-- The invariant holds at reset. -/
def Obligations.InvariantAtReset : Prop := Inv State.reset

/-- R176, R178, R179: every step keeps the invariant: nothing in flight during reset, and every response
owed is one the engine may give to its command. -/
def Obligations.StepKeepsInvariant : Prop :=
  ∀ s t : State, Inv s → step s = .next t → Inv t

/-- R60, R171, R176: a response is returned only when it is the oldest one owed, to the host that issued
the command, and it is one the engine may give. -/
def Obligations.ReturnedResponseIsAllowed : Prop :=
  ∀ (s t : State) (x : Response), Inv s → EngineStep s t → t.out = some x →
    ∃ e rest, s.inFlight = e :: rest ∧ t.inFlight = rest ∧ x = e.response ∧
      ResponseAllowed e.request x

/-- R176: wherever the next move is a return, outside reset, the oldest response owed is returned,
whatever else is scheduled; with nothing owed the engine is idle. -/
def Obligations.ReturnGivesOldestResponse : Prop :=
  ∀ s : State, s.rst = false → nextEvent s = .deliver →
    (∀ e rest, s.inFlight = e :: rest →
      step s = .next { s with
        events := s.events.tail
        inFlight := rest
        out := some e.response }) ∧
    (s.inFlight = [] → step s = .next { s with events := s.events.tail, out := none })

/-- R170, R176, R188: with the next moves returns (scheduled, or after the schedule's end), outside reset,
the engine returns the responses it owes in order, one a step. With nothing more scheduled, a run that
owes a response ends exactly when the last one has been returned, and stays idle. -/
def Obligations.OwedResponsesDrainInOrder : Prop :=
  ∀ s : State, s.rst = false → (∀ e ∈ s.events.take s.inFlight.length, e = .deliver) →
    returned s.inFlight.length s = s.inFlight.map (·.response) ∧
    ∃ t : State, core.run s.inFlight.length s = .next t ∧
      t.events = s.events.drop s.inFlight.length ∧ t.inFlight = [] ∧
      (s.events = [] → step t = .next { t with out := none } ∧
        (s.inFlight ≠ [] → ∀ k, Finished k s ↔ s.inFlight.length ≤ k))

/-- R188: when q is the host's last command and nothing is scheduled after it, the run ends exactly when
q's response is returned, behind those owed before it. That it is returned inFlight.length + 2 steps on
rests on the model's choice that the engine goes on returning, one response a step, after the schedule's
end (log entry 9). When such a q violates its contract (R157) the run never ends, nor does one whose last
command is discarded by reset (R179), whatever follows, so that its response is never received (log
entry 16). -/
def Obligations.RunEndsWithLastResponse : Prop :=
  ∀ s : State,
    (∀ q, s.events = [.issue q] → s.rst = false →
      (∀ x, responseAlone q = some x → ∀ k, Finished k s ↔ s.inFlight.length + 2 ≤ k) ∧
      (responseAlone q = none → ∀ k, ¬Finished k s)) ∧
    (∀ es, s.events = .assertReset :: es → s.inFlight ≠ [] → (∀ q, .issue q ∉ es) →
      ∀ k, ¬Finished k s)

/-- R55, R171, R176: under every interleaving of commands from any hosts with the engine's returns, the
responses returned and still owed are, in the order of the commands, what was owed before and then
the response each command gets when it is issued alone. -/
def Obligations.EveryInterleavingGivesOwnResponses : Prop :=
  ∀ (k : Nat) (s t : State), s.rst = false →
    (∀ e ∈ s.events.take k, e ≠ .assertReset) → core.run k s = .next t →
      (returned k s ++ t.inFlight.map (·.response)).map some =
        (s.inFlight.map (·.response)).map some ++ (issuedBy (s.events.take k)).map responseAlone

/-! The spec's laws -/

/-- R87. -/
def Obligations.BitAccessLaws : Prop :=
  ∀ (w : Word) (i : Nat), i ≤ 63 →
    (∃ x, Gives .set w (arg i) x ∧ Gives .get x (arg i) 1#64) ∧
    (∃ x, Gives .clear w (arg i) x ∧ Gives .get x (arg i) 0#64) ∧
    (∃ x g, Gives .flip w (arg i) x ∧ Gives .get w (arg i) g ∧ Gives .get x (arg i) (1#64 - g) ∧
      ∀ j ≤ 63, j ≠ i → ∃ h, Gives .get w (arg j) h ∧ Gives .get x (arg j) h)

/-- R88. -/
def Obligations.BitAccessDerivedLaws : Prop :=
  ∀ (w : Word) (i : Nat), i ≤ 63 →
    ∃ x y z g c, Gives .set w (arg i) x ∧ Gives .clear w (arg i) y ∧ Gives .flip w (arg i) z ∧
      Gives .get w (arg i) g ∧ Gives .countOnes w 0#64 c ∧
      (∀ j ≤ 63, j ≠ i →
        ∃ h, Gives .get w (arg j) h ∧ Gives .get x (arg j) h ∧ Gives .get y (arg j) h) ∧
      (x = w ↔ g = 1#64) ∧ (y = w ↔ g = 0#64) ∧
      (g = 0#64 → z = x) ∧ (g ≠ 0#64 → z = y) ∧
      Gives .countOnes x 0#64 (c + 1#64 - g)

/-- R97, R98. -/
def Obligations.CountLaws : Prop :=
  ∀ w : Word, ∃ m n, Gives .countOnes w 0#64 m ∧ Gives .countZeros w 0#64 n ∧
    m.toNat + n.toNat = 64 ∧ Gives .countOnes (~~~w) 0#64 n ∧
    Gives .countBit w 1#64 m ∧ Gives .countBit w 0#64 n

/-- R112, R113. -/
def Obligations.RankLaws : Prop :=
  ∀ w : Word,
    (∃ r, Gives .rank1 w (arg 0) r ∧ Gives .get w (arg 0) r) ∧
    (∃ r, Gives .rank1 w (arg 63) r ∧ Gives .countOnes w 0#64 r) ∧
    ∀ i ≤ 63, ∃ m n, Gives .rank1 w (arg i) m ∧ Gives .rank0 w (arg i) n ∧
      m.toNat + n.toNat = i + 1 ∧ Gives .rank1 (~~~w) (arg i) n ∧
      (1 ≤ i → ∃ p g, Gives .rank1 w (arg (i - 1)) p ∧ Gives .get w (arg i) g ∧
        m.toNat = p.toNat + g.toNat)

/-- R107, R109, R110, R111, C4: the formulations the spec allows agree with the commands for every word
and index, and the literal reading of the source exceeds RANK0 by 63 − i, which is 0 only at i = 63. -/
def Obligations.RankFormulationsAgree : Prop :=
  ∀ (w : Word) (i : Nat), i ≤ 63 →
    ∃ m n, Gives .rank1 w (arg i) m ∧ Gives .rank0 w (arg i) n ∧
      rank1Shift w i = sint m ∧ rank0Complement w i = sint n ∧ rank0HighOr w i = sint n ∧
      rank0Rebased w i = sint n ∧ rank0Literal w i = sint n + (63 - i)

/-- R117, R120, R121: the laws of the least set bit. -/
def Obligations.LeastSetBitLaws : Prop :=
  ∀ w : Word, ∃ x n, Gives .leastSetBit w 0#64 x ∧ Gives .leastSetBitIndex w 0#64 n ∧
    (x = 0#64 ↔ w = 0#64) ∧ x = w &&& (0#64 - w) ∧ Gives .select1 w 0#64 n ∧
    (w = 0#64 → n = allOnes ∧ Gives .countOnes x 0#64 0#64) ∧
    (w ≠ 0#64 → Gives .get w n 1#64 ∧ (∀ j < n.toNat, Gives .get w (arg j) 0#64) ∧
      Gives .lutBit 0#64 n x ∧ Gives .countOnes x 0#64 1#64 ∧ Gives .flip w n (w ^^^ x))

/-- R128: select and rank are inverses. -/
def Obligations.SelectRankInverse : Prop :=
  ∀ w : Word,
    (∃ c, Gives .countOnes w 0#64 c ∧ Gives .select1 w c allOnes ∧
      ∀ k < c.toNat, ∃ p, Gives .select1 w (arg k) p ∧ Gives .get w p 1#64 ∧
        Gives .rank1 w p (arg (k + 1))) ∧
    ∀ k < 2 ^ 63, ∃ p, Gives .select0 w (arg k) p ∧ Gives .select1 (~~~w) (arg k) p

/-- R144: the clear-bit form of R128. -/
def Obligations.SelectZeroRankInverse : Prop :=
  ∀ w : Word,
    ∃ c, Gives .countZeros w 0#64 c ∧ Gives .select0 w c allOnes ∧
      ∀ k < c.toNat, ∃ p, Gives .select0 w (arg k) p ∧ Gives .get w p 0#64 ∧
        Gives .rank0 w p (arg (k + 1))

/-- R38, R150: the laws of the tables, and of the commands that use them. -/
def Obligations.TableLaws : Prop :=
  (∀ i ≤ 63, ∃ x y, Gives .lutBit 0#64 (arg i) x ∧ Gives .lutNotBit 0#64 (arg i) y ∧
    y = ~~~x ∧ Gives .countOnes x 0#64 1#64 ∧ Gives .countOnes y 0#64 63#64 ∧
    ∀ w : Word, Gives .set w (arg i) (w ||| x) ∧ Gives .clear w (arg i) (w &&& y) ∧
      Gives .flip w (arg i) (w ^^^ x)) ∧
  (∀ i ≤ 64, ∃ x y, Gives .lutLowMask 0#64 (arg i) x ∧ Gives .lutHighMask 0#64 (arg i) y ∧
    y = ~~~x ∧ Gives .countOnes x 0#64 (arg i) ∧ Gives .countOnes y 0#64 (arg (64 - i)) ∧
    (∀ j ≤ 63, ∃ m, Gives .lutBit 0#64 (arg j) m ∧ (x &&& m ≠ 0#64 ↔ j < i))) ∧
  (∀ i ≤ 63, ∀ w : Word, ∃ x r, Gives .lutLowMask 0#64 (arg (i + 1)) x ∧
    Gives .rank1 w (arg i) r ∧ Gives .countOnes (w &&& x) 0#64 r)

/-! The circuits -/

/-- R94: the counting circuit computes `popcount`. The circuit's constants and folds are the spec's own,
from general knowledge (log entry 12). -/
def Obligations.CountingCircuitIsPopcount : Prop :=
  ∀ w : Word, swarPopcount w = toWord (popcount w)

/-- R100, R131: lane j of byteCounts counts byte lane j, and lane j of bytePrefix counts positions 0 to
8j + 7. -/
def Obligations.BytePrefixLanesCount : Prop :=
  ∀ (w : Word) (j : Nat), j < 8 →
    (byteLane (byteCounts w) j).toNat =
      ((setPositions w).filter fun p => 8 * j ≤ p ∧ p ≤ 8 * j + 7).card ∧
    (byteLane (bytePrefix w) j).toNat = ((setPositions w).filter (· ≤ 8 * j + 7)).card

/-- R132: the lane comparison, in its domain. -/
def Obligations.LaneComparisonInDomain : Prop :=
  ∀ x y : Word, (∀ j < 8, (byteLane x j).toNat < 128 ∧ (byteLane y j).toNat < 128) →
    ∀ j < 8, byteLane (leq8 x y) j =
      if (byteLane x j).toNat ≤ (byteLane y j).toNat then 0x80#8 else 0#8

/-- R133: the lane non-zero test, for every lane value. -/
def Obligations.LaneNonZeroTest : Prop :=
  ∀ (x : Word) (j : Nat), j < 8 →
    byteLane (nz8 x) j = if byteLane x j = 0#8 then 0#8 else 0x80#8

/-- R143: the byte-parallel datapath computes the normative function, for every word and every k. The
datapath's constants and steps are the spec's own, from general knowledge (log entry 12). -/
def Obligations.SelectDatapathIsSel1 : Prop :=
  ∀ (w : Word) (k : Nat), selectDatapath w k = sel1 w k
end

