-- ==== Sys2Proof/Config.lean ====
section
/-! DEFINITION. What an implementation fixes: the engine's parameters of spec/00_scope.md R8. The
fixed ones are numbers; the open ones that no schedule of `State.events` stands for are constants
without a body, so that no proof can rest on their values (log entries 2, 8, 10 and 14). -/
namespace Sys2Proof.Config

/-- `WORD_WIDTH` of R8: 64 bits, fixed. -/
def wordWidth : Nat := 64

/-- `CMD_WIDTH` of R8: 32 bits. -/
def cmdWidth : Nat := 32

/-- `OP_WIDTH` of R8: 5 bits. -/
def opWidth : Nat := 5

/-- `RESET_STYLE` of R8 and R175: whether reset is synchronous, whether it is active high, and how
long it must be asserted. -/
structure ResetStyle where
  synchronous : Bool
  activeHigh : Bool
  minimumCycles : Nat
  deriving DecidableEq, Repr, Inhabited

/-- `LATENCY` of R8 and R185: OPEN, cycles from acceptance to response, the same for every command.
A model has no time (R187), so no definition of the model reads it. -/
opaque latency : Nat

/-- `RESET_STYLE`: OPEN. Reset may be asserted and released at any place of the schedule, so no
definition of the model reads it. -/
opaque resetStyle : ResetStyle

/-- `HOST_BYTE_ORDER` of R8 and R47: OPEN, which byte of the host's memory holds which lane of a
port. It is the host's; the engine has no byte order, so no definition of the model reads it. -/
opaque hostByteOrder : Fin 8 → Fin 8

end Sys2Proof.Config
end

