-- ==== Sys2Proof/Laws/State.lean ====
section
/-! SUPPORT. One lemma per field per update of the state: what each named operation writes and what it
leaves. -/
namespace Sys2Proof.Machine

@[simp] theorem answer_events (r : Word) (x : Status) (s : State) :
    (answer r x s).events = s.events := rfl

@[simp] theorem answer_rst (r : Word) (x : Status) (s : State) : (answer r x s).rst = s.rst := rfl

@[simp] theorem answer_current (r : Word) (x : Status) (s : State) :
    (answer r x s).current = s.current := rfl

@[simp] theorem answer_inFlight (r : Word) (x : Status) (s : State) :
    (answer r x s).inFlight = s.inFlight ++
      [{ request := s.current, response := { host := s.current.host, r := r, status := x } }] := rfl

@[simp] theorem answer_out (r : Word) (x : Status) (s : State) : (answer r x s).out = s.out := rfl

@[simp] theorem advance_events (s : State) : (advance s).events = s.events.tail := rfl

@[simp] theorem advance_rst (s : State) : (advance s).rst = s.rst := rfl

@[simp] theorem advance_current (s : State) : (advance s).current = s.current := rfl

@[simp] theorem advance_inFlight (s : State) : (advance s).inFlight = s.inFlight := rfl

@[simp] theorem advance_out (s : State) : (advance s).out = none := rfl

@[simp] theorem present_events (q : Request) (s : State) : (present q s).events = s.events := rfl

@[simp] theorem present_rst (q : Request) (s : State) : (present q s).rst = s.rst := rfl

@[simp] theorem present_current (q : Request) (s : State) : (present q s).current = q := rfl

@[simp] theorem present_inFlight (q : Request) (s : State) :
    (present q s).inFlight = s.inFlight := rfl

@[simp] theorem present_out (q : Request) (s : State) : (present q s).out = s.out := rfl

@[simp] theorem enterReset_events (s : State) : (enterReset s).events = s.events := rfl

@[simp] theorem enterReset_rst (s : State) : (enterReset s).rst = true := rfl

@[simp] theorem enterReset_current (s : State) : (enterReset s).current = s.current := rfl

@[simp] theorem enterReset_inFlight (s : State) : (enterReset s).inFlight = [] := rfl

@[simp] theorem enterReset_out (s : State) : (enterReset s).out = s.out := rfl

@[simp] theorem leaveReset_events (s : State) : (leaveReset s).events = s.events := rfl

@[simp] theorem leaveReset_rst (s : State) : (leaveReset s).rst = false := rfl

@[simp] theorem leaveReset_current (s : State) : (leaveReset s).current = s.current := rfl

@[simp] theorem leaveReset_inFlight (s : State) : (leaveReset s).inFlight = s.inFlight := rfl

@[simp] theorem leaveReset_out (s : State) : (leaveReset s).out = s.out := rfl

/-- Delivering changes only the FIFO and the response ports. -/
theorem deliverOldest_frame (s : State) :
    (deliverOldest s).events = s.events ∧ (deliverOldest s).rst = s.rst ∧
      (deliverOldest s).current = s.current := by
  unfold deliverOldest
  split
  · exact ⟨rfl, rfl, rfl⟩
  · split <;> exact ⟨rfl, rfl, rfl⟩

@[simp] theorem deliverOldest_events (s : State) : (deliverOldest s).events = s.events :=
  (deliverOldest_frame s).1

@[simp] theorem deliverOldest_rst (s : State) : (deliverOldest s).rst = s.rst :=
  (deliverOldest_frame s).2.1

@[simp] theorem deliverOldest_current (s : State) : (deliverOldest s).current = s.current :=
  (deliverOldest_frame s).2.2

theorem deliverOldest_inReset {s : State} (h : s.rst = true) : deliverOldest s = s := by
  simp [deliverOldest, h]

theorem deliverOldest_idle {s : State} (h : s.inFlight = []) : deliverOldest s = s := by
  simp [deliverOldest, h]

theorem deliverOldest_cons {s : State} {e : InFlight} {rest : List InFlight} (hr : s.rst = false)
    (h : s.inFlight = e :: rest) :
    deliverOldest s = { s with inFlight := rest, out := some e.response } := by
  simp [deliverOldest, hr, h]

end Sys2Proof.Machine
end

