-- ==== Sys2Proof/Laws/Ops.lean ====
section
/-! SUPPORT. What each shared operation, each command and each step can do, said once: the lemmas that
proofs cite instead of unfolding the machine. -/
namespace Sys2Proof.Machine

open Sys2Proof.Safety

/-- What a command may answer: a response appended to the FIFO with STATUS = OK, or the fault that
records the command on the ports. -/
def AnswersOrFaults (s : State) (o : Result) : Prop :=
  (∃ r, o = .next (answer r .ok s)) ∨ ∃ v, o = .fault (.contractViolation v s.current)

theorem answer_eq_afterResponse (r : Word) (x : Status) (s : State) :
    answer r x s = afterResponse s r x := rfl

theorem present_advance (q : Request) (s : State) : present q (advance s) = presented s q := rfl

theorem respond_spec (r : Word) (s : State) : AnswersOrFaults s (respond r s) := .inl ⟨r, rfl⟩

theorem respondInt_spec (n : Int) (s : State) : AnswersOrFaults s (respondInt n s) :=
  .inl ⟨toWord n, rfl⟩

theorem raise_spec (v : Violation) (s : State) :
    AnswersOrFaults s (raiseContractViolation v s) := .inr ⟨v, rfl⟩

theorem lutRead_inRange {T : Table} {i : Int} (s : State) (k : Word → Result)
    (h : 0 ≤ i ∧ i ≤ lutLast T) : lutRead T i s k = k (lutEntry T i.toNat) := if_pos h

theorem lutRead_outOfRange {T : Table} {i : Int} (s : State) (k : Word → Result)
    (h : ¬(0 ≤ i ∧ i ≤ lutLast T)) : lutRead T i s k = raiseContractViolation .lutIndex s := if_neg h

theorem lutRead_spec {T : Table} {i : Int} {s : State} {k : Word → Result}
    (h : ∀ m, AnswersOrFaults s (k m)) : AnswersOrFaults s (lutRead T i s k) := by
  unfold lutRead
  split
  · exact h _
  · exact raise_spec _ s

theorem requireIndex_inRange {v : Violation} {s : State} {k : Nat → Result}
    (h : 0 ≤ operandB s ∧ operandB s ≤ 63) :
    requireIndex v s k = k (operandB s).toNat := if_pos h

theorem requireIndex_outOfRange {v : Violation} {s : State} {k : Nat → Result}
    (h : ¬(0 ≤ operandB s ∧ operandB s ≤ 63)) :
    requireIndex v s k = raiseContractViolation v s := if_neg h

theorem requireIndex_spec {v : Violation} {s : State} {k : Nat → Result}
    (h : ∀ i, AnswersOrFaults s (k i)) : AnswersOrFaults s (requireIndex v s k) := by
  unfold requireIndex
  split
  · exact h _
  · exact raise_spec _ s

theorem requireBitValue_spec {s : State} {k : Bool → Result}
    (h : ∀ b, AnswersOrFaults s (k b)) : AnswersOrFaults s (requireBitValue s k) := by
  unfold requireBitValue
  split
  · exact h _
  · exact raise_spec _ s

theorem requireRank_spec {s : State} {k : Nat → Result}
    (h : ∀ n, AnswersOrFaults s (k n)) : AnswersOrFaults s (requireRank s k) := by
  unfold requireRank
  split
  · exact h _
  · exact raise_spec _ s

/-- A table read behind an index check that keeps the index in the table's range answers. -/
theorem requireIndex_lutRead {v : Violation} {s : State} {T : Table} {idx : Nat → Int}
    {k : Nat → Word → Result} (hT : ∀ i ≤ 63, 0 ≤ idx i ∧ idx i ≤ lutLast T)
    (h : 0 ≤ operandB s ∧ operandB s ≤ 63) :
    (requireIndex v s fun i => lutRead T (idx i) s (k i)) =
      k (operandB s).toNat (lutEntry T (idx (operandB s).toNat).toNat) := by
  rw [requireIndex_inRange h, lutRead_inRange s _ (hT _ (by omega))]

/-- Everything a command can do. -/
theorem exec_spec (i : Instr) (s : State) : AnswersOrFaults s (exec i s) := by
  cases i <;> simp only [exec]
  case get => exact requireIndex_spec fun _ => respond_spec _ s
  case set => exact requireIndex_spec fun _ => lutRead_spec fun _ => respond_spec _ s
  case clear => exact requireIndex_spec fun _ => lutRead_spec fun _ => respond_spec _ s
  case flip => exact requireIndex_spec fun _ => lutRead_spec fun _ => respond_spec _ s
  case countOnes => exact respondInt_spec _ s
  case countZeros => exact respondInt_spec _ s
  case countBit => exact requireBitValue_spec fun _ => respondInt_spec _ s
  case rank1 => exact requireIndex_spec fun _ => lutRead_spec fun _ => respondInt_spec _ s
  case rank0 => exact requireIndex_spec fun _ => lutRead_spec fun _ => respondInt_spec _ s
  case leastSetBit => exact respond_spec _ s
  case leastSetBitIndex => exact respondInt_spec _ s
  case select1 => exact requireRank_spec fun _ => respondInt_spec _ s
  case select0 => exact requireRank_spec fun _ => respondInt_spec _ s
  case lutBit => exact lutRead_spec fun _ => respond_spec _ s
  case lutNotBit => exact lutRead_spec fun _ => respond_spec _ s
  case lutLowMask => exact lutRead_spec fun _ => respond_spec _ s
  case lutHighMask => exact lutRead_spec fun _ => respond_spec _ s

/-- A command that answers appends one response with STATUS = OK and changes nothing else. -/
theorem exec_next {i : Instr} {s t : State} (h : exec i s = .next t) :
    ∃ r, t = answer r .ok s := by
  rcases exec_spec i s with ⟨r, e⟩ | ⟨v, e⟩
  · exact ⟨r, by simpa using h.symm.trans e⟩
  · exact absurd (h.symm.trans e) (by simp)

/-- No command is refused. -/
theorem exec_not_refused (i : Instr) (s : State) (r : Refusal) : exec i s ≠ .refused r := by
  rcases exec_spec i s with ⟨r, e⟩ | ⟨v, e⟩ <;> simp [e]

theorem runCommand_legal {s : State} {i : Instr} (h : decode s.current.cmd = .legal i) :
    runCommand s = exec i s := by simp [runCommand, h]

theorem runCommand_illegal {s : State} {w : Illegal} (h : decode s.current.cmd = .illegal w) :
    runCommand s = .next (answer 0#64 .illegalCommand s) := by simp [runCommand, h, respondIllegal]

/-- A command that answers appends one response and changes nothing else. -/
theorem runCommand_next {s t : State} (h : runCommand s = .next t) :
    ∃ r x, t = answer r x s := by
  unfold runCommand at h
  split at h
  · obtain ⟨r, rfl⟩ := exec_next h
    exact ⟨r, _, rfl⟩
  · exact ⟨0#64, _, by simpa [respondIllegal] using h.symm⟩

theorem step_issue {s : State} {q : Request} {es : List Event} (h : s.events = .issue q :: es) :
    step s = issueCommand q (advance s) := by simp [step, nextEvent, takeEvent, h]

theorem step_deliver {s : State} (h : s.events.headD .deliver = .deliver) :
    step s = .next (deliverOldest (advance s)) := by
  unfold step nextEvent
  rw [h]
  rfl

theorem step_assertReset {s : State} {es : List Event} (h : s.events = .assertReset :: es) :
    step s = .next (enterReset (advance s)) := by simp [step, nextEvent, takeEvent, h]

theorem step_releaseReset {s : State} {es : List Event} (h : s.events = .releaseReset :: es) :
    step s = .next (leaveReset (advance s)) := by simp [step, nextEvent, takeEvent, h]

/-- Everything a step that answers can do. -/
theorem step_next {s t : State} (h : step s = .next t) :
    (∃ q es r x, s.events = .issue q :: es ∧ s.rst = false ∧
        runCommand (present q (advance s)) = .next t ∧ t = answer r x (present q (advance s))) ∨
    (s.events.headD .deliver = .deliver ∧ t = deliverOldest (advance s)) ∨
    (∃ es, s.events = .assertReset :: es ∧ t = enterReset (advance s)) ∨
    (∃ es, s.events = .releaseReset :: es ∧ t = leaveReset (advance s)) := by
  match he : s.events with
  | [] =>
    rw [step_deliver (by simp [he])] at h
    exact .inr (.inl ⟨rfl, by simpa using h.symm⟩)
  | .deliver :: es =>
    rw [step_deliver (by simp [he])] at h
    exact .inr (.inl ⟨rfl, by simpa using h.symm⟩)
  | .assertReset :: es =>
    rw [step_assertReset he] at h
    exact .inr (.inr (.inl ⟨es, rfl, by simpa using h.symm⟩))
  | .releaseReset :: es =>
    rw [step_releaseReset he] at h
    exact .inr (.inr (.inr ⟨es, rfl, by simpa using h.symm⟩))
  | .issue q :: es =>
    rw [step_issue he] at h
    unfold issueCommand at h
    split at h
    · simp at h
    · rename_i hr
      obtain ⟨r, x, e⟩ := runCommand_next h
      exact .inl ⟨q, es, r, x, rfl, by simpa using hr, h, e⟩

/-! Runs, one step at a time -/

theorem run_succ {s t : State} (k : Nat) (h : step s = .next t) : core.run (k + 1) s = core.run k t := by
  have h : core.step s = .next t := h
  simp only [Host.Core.run, h]

theorem run_fault {s : State} {f : Fault} (k : Nat) (h : step s = .fault f) :
    core.run (k + 1) s = .fault f := by
  have h : core.step s = .fault f := h
  simp only [Host.Core.run, h]

theorem returned_succ {s t : State} (k : Nat) (h : step s = .next t) :
    returned (k + 1) s = t.out.toList ++ returned k t := by simp [returned, h]

theorem lastAnswered_succ {s t : State} (k : Nat) (b : Bool) (h : step s = .next t) :
    lastAnswered (k + 1) s b = lastAnswered k t (answeredAfter s t b) := by simp [lastAnswered, h]

theorem answeredAfter_issue {s : State} {q : Request} (h : nextEvent s = .issue q) (t : State) (b : Bool) :
    answeredAfter s t b = false := by simp [answeredAfter, h]

theorem answeredAfter_deliver {s : State} (h : nextEvent s = .deliver) (t : State) (b : Bool) :
    answeredAfter s t b = (b || (t.out.isSome && t.inFlight.isEmpty)) := by simp [answeredAfter, h]

/-- Once the host holds the last command's response, the moves after it do not take that back, as long
as it issues no command. -/
theorem answeredAfter_true {s : State} (h : ∀ q, nextEvent s ≠ .issue q) (t : State) :
    answeredAfter s t true = true := by
  unfold answeredAfter
  split <;> simp_all

/-- With nothing in flight and no command issued, no response is returned and nothing comes in flight. -/
theorem step_owesNothing {s t : State} (hf : s.inFlight = []) (h : ∀ q, .issue q ∉ s.events)
    (hs : step s = .next t) :
    t.inFlight = [] ∧ t.out = none ∧ (∀ q, .issue q ∉ t.events) := by
  have tail : ∀ q, .issue q ∉ s.events.tail := fun q hm => h q (List.mem_of_mem_tail hm)
  rcases step_next hs with ⟨q, es, r, x, he, -⟩ | ⟨-, rfl⟩ | ⟨es, -, rfl⟩ | ⟨es, -, rfl⟩
  · exact absurd (by rw [he]; exact List.mem_cons_self) (h q)
  · rw [deliverOldest_idle (by simpa using hf)]
    exact ⟨by simpa using hf, rfl, tail⟩
  · exact ⟨rfl, rfl, tail⟩
  · exact ⟨by simpa using hf, rfl, tail⟩

end Sys2Proof.Machine
end

