-- ==== Sys2Proof/Laws/PerInstr.lean ====
section
/-! SUPPORT. One lemma per command for the statements "for all commands" about the command as syntax:
its word decodes to it, and is a legal word. -/
namespace Sys2Proof.Laws.RoundTrip

/-- The word of a command (R73) is legal (R68) and decodes to the command (R63). -/
def Statement (i : Instr) : Prop := decode (encode i) = .legal i ∧ wfCommandWord (encode i) = true

theorem get : Statement .get := by unfold Statement; decide
theorem set : Statement .set := by unfold Statement; decide
theorem clear : Statement .clear := by unfold Statement; decide
theorem flip : Statement .flip := by unfold Statement; decide
theorem countOnes : Statement .countOnes := by unfold Statement; decide
theorem countZeros : Statement .countZeros := by unfold Statement; decide
theorem countBit : Statement .countBit := by unfold Statement; decide
theorem rank1 : Statement .rank1 := by unfold Statement; decide
theorem rank0 : Statement .rank0 := by unfold Statement; decide
theorem leastSetBit : Statement .leastSetBit := by unfold Statement; decide
theorem leastSetBitIndex : Statement .leastSetBitIndex := by unfold Statement; decide
theorem select1 : Statement .select1 := by unfold Statement; decide
theorem select0 : Statement .select0 := by unfold Statement; decide
theorem lutBit : Statement .lutBit := by unfold Statement; decide
theorem lutNotBit : Statement .lutNotBit := by unfold Statement; decide
theorem lutLowMask : Statement .lutLowMask := by unfold Statement; decide
theorem lutHighMask : Statement .lutHighMask := by unfold Statement; decide

end Sys2Proof.Laws.RoundTrip
end

