-- ==== Sys2Proof/Laws/Commands.lean ====
section
/-! SUPPORT. Each command as one function of A and n = sint(B), and `exec`, `responseAlone` and
`resultOf` in terms of it: the one place where the meanings are unfolded. -/
namespace Sys2Proof.Machine

open Sys2Proof.Safety

/-- What a command answers to A = a and sint(B) = n, or the reason it violates its contract. -/
def commandAnswer (i : Instr) (a : Word) (n : Int) : Except Violation Word :=
  let index (v : Violation) (r : Word) : Except Violation Word :=
    if 0 ≤ n ∧ n ≤ 63 then .ok r else .error v
  match i with
  | .get => index .bitIndex (bitAt a n.toNat)
  | .set => index .bitIndex (a ||| bitEntry n.toNat)
  | .clear => index .bitIndex (a &&& notBitEntry n.toNat)
  | .flip => index .bitIndex (a ^^^ bitEntry n.toNat)
  | .countOnes => .ok (toWord (popcount a))
  | .countZeros => .ok (toWord (64 - popcount a))
  | .countBit =>
    if n = 0 ∨ n = 1 then .ok (toWord (popcount (a ^^^ countMask (decide (n = 1)))))
    else .error .bitValue
  | .rank1 => index .rankIndex (toWord (popcount (a &&& lowMaskEntry (n.toNat + 1))))
  | .rank0 => index .rankIndex (toWord ((n.toNat + 1) - popcount (a &&& lowMaskEntry (n.toNat + 1))))
  | .leastSetBit => .ok (isolateLowest a)
  | .leastSetBitIndex => .ok (toWord (lowestIndex a))
  | .select1 => if 0 ≤ n then .ok (toWord (sel1 a n.toNat)) else .error .negativeSelectRank
  | .select0 => if 0 ≤ n then .ok (toWord (sel1 (~~~a) n.toNat)) else .error .negativeSelectRank
  | .lutBit => index .lutIndex (bitEntry n.toNat)
  | .lutNotBit => index .lutIndex (notBitEntry n.toNat)
  | .lutLowMask => if 0 ≤ n ∧ n ≤ 64 then .ok (lowMaskEntry n.toNat) else .error .lutIndex
  | .lutHighMask => if 0 ≤ n ∧ n ≤ 64 then .ok (highMaskEntry n.toNat) else .error .lutIndex

/-- How a command's answer becomes the outcome of the machine. -/
def outcomeOf (s : State) : Except Violation Word → Result
  | .ok r => .next (answer r .ok s)
  | .error v => .fault (.contractViolation v s.current)

@[simp] theorem outcomeOf_ok (s : State) (r : Word) : outcomeOf s (.ok r) = .next (answer r .ok s) := rfl

@[simp] theorem outcomeOf_error (s : State) (v : Violation) :
    outcomeOf s (.error v) = .fault (.contractViolation v s.current) := rfl

theorem outcomeOf_ite (s : State) (p : Prop) [Decidable p] (x y : Except Violation Word) :
    outcomeOf s (if p then x else y) = if p then outcomeOf s x else outcomeOf s y := by
  split <;> rfl

theorem requireIndex_eq (v : Violation) (s : State) (k : Nat → Result) :
    requireIndex v s k = if 0 ≤ operandB s ∧ operandB s ≤ 63 then k (operandB s).toNat
      else raiseContractViolation v s := rfl

/-- Reading a table behind the index check is reading the entry. -/
theorem requireIndex_lutRead_eq (v : Violation) (s : State) (T : Table) (idx : Nat → Int)
    (k : Nat → Word → Result) (hT : ∀ i ≤ 63, 0 ≤ idx i ∧ idx i ≤ lutLast T) :
    (requireIndex v s fun i => lutRead T (idx i) s (k i)) =
      if 0 ≤ operandB s ∧ operandB s ≤ 63
      then k (operandB s).toNat (lutEntry T (idx (operandB s).toNat).toNat)
      else raiseContractViolation v s := by
  split
  · rename_i h; exact requireIndex_lutRead hT h
  · rename_i h; exact requireIndex_outOfRange h

/-- `exec` is the command's answer. -/
theorem exec_eq (i : Instr) (s : State) :
    exec i s = outcomeOf s (commandAnswer i s.current.a (sint s.current.b)) := by
  cases i <;> simp only [commandAnswer, exec, outcomeOf_ite]
  case get => rfl
  case set => exact requireIndex_lutRead_eq _ s .bit _ _ (by simp [lutLast])
  case clear => exact requireIndex_lutRead_eq _ s .notBit _ _ (by simp [lutLast])
  case flip => exact requireIndex_lutRead_eq _ s .bit _ _ (by simp [lutLast])
  case countOnes => rfl
  case countZeros => rfl
  case countBit => rfl
  case rank1 => exact requireIndex_lutRead_eq _ s .lowMask _ _ (by simp [lutLast]; omega)
  case rank0 => exact requireIndex_lutRead_eq _ s .lowMask _ _ (by simp [lutLast]; omega)
  case leastSetBit => rfl
  case leastSetBitIndex => rfl
  case select1 => rfl
  case select0 => rfl
  case lutBit => rfl
  case lutNotBit => rfl
  case lutLowMask => rfl
  case lutHighMask => rfl

theorem decode_encode (i : Instr) : decode (encode i) = .legal i := by
  cases i
  case get => exact Laws.RoundTrip.get.1
  case set => exact Laws.RoundTrip.set.1
  case clear => exact Laws.RoundTrip.clear.1
  case flip => exact Laws.RoundTrip.flip.1
  case countOnes => exact Laws.RoundTrip.countOnes.1
  case countZeros => exact Laws.RoundTrip.countZeros.1
  case countBit => exact Laws.RoundTrip.countBit.1
  case rank1 => exact Laws.RoundTrip.rank1.1
  case rank0 => exact Laws.RoundTrip.rank0.1
  case leastSetBit => exact Laws.RoundTrip.leastSetBit.1
  case leastSetBitIndex => exact Laws.RoundTrip.leastSetBitIndex.1
  case select1 => exact Laws.RoundTrip.select1.1
  case select0 => exact Laws.RoundTrip.select0.1
  case lutBit => exact Laws.RoundTrip.lutBit.1
  case lutNotBit => exact Laws.RoundTrip.lutNotBit.1
  case lutLowMask => exact Laws.RoundTrip.lutLowMask.1
  case lutHighMask => exact Laws.RoundTrip.lutHighMask.1

/-- Issuing a command outside reset runs it with the command on the ports. -/
theorem step_issue_run {s : State} {q : Request} {es : List Event} (h : s.events = .issue q :: es)
    (hr : s.rst = false) : step s = runCommand (presented s q) := by
  rw [step_issue h, issueCommand, if_neg (by simp [hr]), present_advance]

theorem runCommand_presented_legal {s : State} {q : Request} {i : Instr}
    (h : decode q.cmd = .legal i) : runCommand (presented s q) = exec i (presented s q) :=
  runCommand_legal (s := presented s q) h

theorem runCommand_presented_illegal {s : State} {q : Request} {w : Illegal}
    (h : decode q.cmd = .illegal w) :
    runCommand (presented s q) = .next (answer 0#64 .illegalCommand (presented s q)) :=
  runCommand_illegal (s := presented s q) h

/-- A legal command issued alone gets its answer. -/
theorem responseAlone_legal {q : Request} {i : Instr} (h : decode q.cmd = .legal i) :
    responseAlone q =
      ((commandAnswer i q.a (sint q.b)).toOption).map
        fun r => { host := q.host, r := r, status := .ok } := by
  unfold responseAlone
  rw [step_issue_run (q := q) (es := []) rfl rfl, runCommand_presented_legal h, exec_eq]
  simp only [presented]
  cases commandAnswer i q.a (sint q.b) <;> rfl

/-- An illegal command word issued alone gets the illegal-command response. -/
theorem responseAlone_illegal {q : Request} {w : Illegal} (h : decode q.cmd = .illegal w) :
    responseAlone q = some { host := q.host, r := 0#64, status := .illegalCommand } := by
  unfold responseAlone
  rw [step_issue_run (q := q) (es := []) rfl rfl, runCommand_presented_illegal h]
  rfl

/-- The command i, issued alone by the host h, gets its answer. -/
theorem responseAlone_encode (h : Nat) (i : Instr) (a b : Word) :
    responseAlone { host := h, cmd := encode i, a := a, b := b } =
      ((commandAnswer i a (sint b)).toOption).map fun r => { host := h, r := r, status := .ok } :=
  responseAlone_legal (q := { host := h, cmd := encode i, a := a, b := b }) (decode_encode i)

/-- Commands as functions. -/
theorem resultOf_eq (i : Instr) (a b : Word) :
    resultOf i a b = (commandAnswer i a (sint b)).toOption := by
  unfold resultOf
  rw [responseAlone_encode]
  cases commandAnswer i a (sint b) <;> rfl

theorem gives_iff (i : Instr) (a b r : Word) :
    Gives i a b r ↔ commandAnswer i a (sint b) = .ok r := by
  unfold Gives
  rw [resultOf_eq]
  cases commandAnswer i a (sint b) <;> simp [Except.toOption]

/-- The integer argument n is read back from port B. -/
theorem sint_arg {n : Nat} (h : n < 2 ^ 63) : sint (arg n) = n := by
  unfold sint arg toWord
  rw [BitVec.toInt_ofInt, Int.bmod_eq_of_le] <;> omega

theorem toNat_arg {n : Nat} (h : n < 2 ^ 64) : (arg n).toNat = n := by
  unfold arg toWord
  rw [BitVec.ofInt_natCast, BitVec.toNat_ofNat]
  omega

end Sys2Proof.Machine
end

