-- ==== Sys2Proof/Laws/Counting.lean ====
section
/-! SUPPORT. The small lemmas of the tables and of `popcount`: each table entry bit by bit, and counting
as the size of a set of positions. -/
namespace Sys2Proof.Machine

open Sys2Proof.Safety

theorem allOnes_getLsbD (j : Nat) : allOnes.getLsbD j = decide (j < 64) := by
  have h : allOnes = BitVec.allOnes 64 := by decide
  rw [h, BitVec.getLsbD_allOnes]

theorem bitEntry_getLsbD (i j : Nat) :
    (bitEntry i).getLsbD j = (decide (j < 64) && decide (j = i)) := by
  unfold bitEntry
  rw [BitVec.getLsbD_shiftLeft, BitVec.getLsbD_one]
  have e : (decide (j - i = 0) && !decide (j < i)) = decide (j = i) := by
    by_cases h : j = i
    · simp [h]
    · simp only [h, decide_false, Bool.and_eq_false_iff, decide_eq_false_iff_not, Bool.not_eq_false',
        decide_eq_true_eq]
      omega
  by_cases h : j < 64
  · rw [← e]; simp [h, Bool.and_comm]
  · simp [h]

theorem notBitEntry_getLsbD (i j : Nat) :
    (notBitEntry i).getLsbD j = (decide (j < 64) && decide (j ≠ i)) := by
  have h : notBitEntry i = ~~~(bitEntry i) := rfl
  rw [h, BitVec.getLsbD_not, bitEntry_getLsbD]
  by_cases hj : j < 64 <;> simp [hj]

theorem lowMaskEntry_getLsbD {i : Nat} (hi : i ≤ 64) (j : Nat) :
    (lowMaskEntry i).getLsbD j = (decide (j < 64) && decide (j < i)) := by
  unfold lowMaskEntry
  split
  · rename_i h
    have e : (1#64 <<< i) - 1#64 = BitVec.ofNat 64 (2 ^ i - 1) := by
      have hp : 2 ^ i < 2 ^ 64 := Nat.pow_lt_pow_right (by omega) (by omega)
      have h1 : 1 ≤ 2 ^ i := Nat.one_le_two_pow
      apply BitVec.eq_of_toNat_eq
      rw [BitVec.toNat_sub, BitVec.toNat_shiftLeft, BitVec.toNat_ofNat, BitVec.toNat_ofNat,
        Nat.shiftLeft_eq]
      omega
    rw [e, BitVec.getLsbD_ofNat, Nat.testBit_two_pow_sub_one]
  · have : i = 64 := by omega
    subst this
    rw [allOnes_getLsbD]
    simp

theorem highMaskEntry_getLsbD {i : Nat} (hi : i ≤ 64) (j : Nat) :
    (highMaskEntry i).getLsbD j = (decide (j < 64) && decide (i ≤ j)) := by
  unfold highMaskEntry
  rw [BitVec.getLsbD_shiftLeft, lowMaskEntry_getLsbD (by omega)]
  by_cases h1 : j < 64 <;> by_cases h2 : i ≤ j <;> (simp [h1, h2]; try omega)

@[simp] theorem mem_setPositions (w : Word) (j : Nat) :
    j ∈ setPositions w ↔ j < 64 ∧ w.getLsbD j = true := by simp [setPositions]

@[simp] theorem mem_clearPositions (w : Word) (j : Nat) :
    j ∈ clearPositions w ↔ j < 64 ∧ w.getLsbD j = false := by simp [clearPositions]

/-- Counting is the size of the set of set positions. -/
theorem popcount_eq_card (w : Word) : popcount w = (setPositions w).card := by
  have h : ∀ n, (List.range n).countP (fun i => w.getLsbD i) =
      ((Finset.range n).filter fun j => w.getLsbD j = true).card := by
    intro n
    induction n with
    | zero => rfl
    | succ n ih =>
      rw [List.range_succ, List.countP_append, Finset.range_add_one, Finset.filter_insert, ih]
      by_cases hb : w.getLsbD n = true <;> simp [hb]
  exact h 64

theorem popcount_le (w : Word) : popcount w ≤ 64 := by
  have h := List.countP_le_length (p := fun i => w.getLsbD i) (l := List.range 64)
  rwa [List.length_range] at h

/-- Masking with LOW_MASK[i] keeps the positions below i. -/
theorem setPositions_and_lowMask (w : Word) {i : Nat} (hi : i ≤ 64) :
    setPositions (w &&& lowMaskEntry i) = (setPositions w).filter (· < i) := by
  ext j
  simp only [mem_setPositions, Finset.mem_filter, BitVec.getLsbD_and, lowMaskEntry_getLsbD hi]
  by_cases h : j < 64 <;> simp [h]

/-- The set positions of the complement are the clear positions. -/
theorem setPositions_not (w : Word) : setPositions (~~~w) = clearPositions w := by
  ext j
  simp only [mem_setPositions, mem_clearPositions, BitVec.getLsbD_not]
  by_cases h : j < 64 <;> simp [h]

/-- Every position is set or clear, and not both. -/
theorem card_set_add_card_clear (w : Word) :
    (setPositions w).card + (clearPositions w).card = 64 := by
  have h := Finset.card_filter_add_card_filter_not (s := Finset.range 64)
    (p := fun j => w.getLsbD j = true)
  simpa [setPositions, clearPositions] using h

end Sys2Proof.Machine
end

