-- ==== Sys2Proof/Laws/Lanes.lean ====
section
/-! SUPPORT. Words as eight byte lanes (spec/20_memory.md R46): a word is the sum of its lanes, lanes are read
back from such a sum, additions without a carry and the bitwise operations act lane by lane. -/
namespace Sys2Proof.Machine

theorem byteLane_toNat (v : Word) (j : Nat) :
    (byteLane v j).toNat = v.toNat / 2 ^ (8 * j) % 256 := by
  simp [byteLane, BitVec.extractLsb', Nat.shiftRight_eq_div_pow]

theorem byteLane_getLsbD (v : Word) (j i : Nat) :
    (byteLane v j).getLsbD i = (decide (i < 8) && v.getLsbD (8 * j + i)) := by
  simp [byteLane, BitVec.getLsbD_extractLsb']

/-- The value of eight lanes, lane 0 least significant. -/
def lanesValue (c : Nat → Nat) : Nat :=
  c 0 + 256 * c 1 + 65536 * c 2 + 16777216 * c 3 + 4294967296 * c 4 + 1099511627776 * c 5 +
    281474976710656 * c 6 + 72057594037927936 * c 7

theorem toNat_eq_lanes (v : Word) : v.toNat = lanesValue fun j => (byteLane v j).toNat := by
  simp only [lanesValue, byteLane_toNat]
  have := v.isLt
  norm_num
  omega

/-- Lanes below 256 are read back from their value. -/
theorem byteLane_of_lanes {v : Word} {c : Nat → Nat} (hc : ∀ j < 8, c j < 256)
    (h : v.toNat = lanesValue c) {j : Nat} (hj : j < 8) : (byteLane v j).toNat = c j := by
  have h0 := hc 0 (by omega)
  have h1 := hc 1 (by omega)
  have h2 := hc 2 (by omega)
  have h3 := hc 3 (by omega)
  have h4 := hc 4 (by omega)
  have h5 := hc 5 (by omega)
  have h6 := hc 6 (by omega)
  have h7 := hc 7 (by omega)
  rw [byteLane_toNat, h, lanesValue]
  interval_cases j <;> norm_num <;> omega

theorem lanesValue_lt {c : Nat → Nat} (h : ∀ j < 8, c j < 256) : lanesValue c < 2 ^ 64 := by
  have h0 := h 0 (by omega)
  have h1 := h 1 (by omega)
  have h2 := h 2 (by omega)
  have h3 := h 3 (by omega)
  have h4 := h 4 (by omega)
  have h5 := h 5 (by omega)
  have h6 := h 6 (by omega)
  have h7 := h 7 (by omega)
  unfold lanesValue
  omega

theorem lanesValue_add (c d : Nat → Nat) :
    lanesValue c + lanesValue d = lanesValue fun j => c j + d j := by
  unfold lanesValue
  ring

/-- An addition in which no lane carries acts lane by lane. -/
theorem byteLane_add {a b : Word}
    (h : ∀ j < 8, (byteLane a j).toNat + (byteLane b j).toNat < 256) {j : Nat} (hj : j < 8) :
    byteLane (a + b) j = byteLane a j + byteLane b j := by
  apply BitVec.eq_of_toNat_eq
  rw [BitVec.toNat_add, Nat.mod_eq_of_lt (h j hj)]
  refine byteLane_of_lanes (c := fun j => (byteLane a j).toNat + (byteLane b j).toNat) h ?_ hj
  rw [BitVec.toNat_add, toNat_eq_lanes a, toNat_eq_lanes b, lanesValue_add]
  exact Nat.mod_eq_of_lt (lanesValue_lt h)

/-- A subtraction in which no lane borrows acts lane by lane. -/
theorem byteLane_sub {a b : Word}
    (h : ∀ j < 8, (byteLane b j).toNat ≤ (byteLane a j).toNat) {j : Nat} (hj : j < 8) :
    byteLane (a - b) j = byteLane a j - byteLane b j := by
  have e : lanesValue (fun j => (byteLane a j).toNat - (byteLane b j).toNat) + b.toNat = a.toNat := by
    rw [toNat_eq_lanes a, toNat_eq_lanes b, lanesValue_add]
    unfold lanesValue
    simp only [Nat.sub_add_cancel (h 0 (by omega)), Nat.sub_add_cancel (h 1 (by omega)),
      Nat.sub_add_cancel (h 2 (by omega)), Nat.sub_add_cancel (h 3 (by omega)),
      Nat.sub_add_cancel (h 4 (by omega)), Nat.sub_add_cancel (h 5 (by omega)),
      Nat.sub_add_cancel (h 6 (by omega)), Nat.sub_add_cancel (h 7 (by omega))]
  apply BitVec.eq_of_toNat_eq
  have hl := (byteLane a j).isLt
  rw [BitVec.toNat_sub_of_le (h j hj)]
  refine byteLane_of_lanes (c := fun j => (byteLane a j).toNat - (byteLane b j).toNat)
    (fun j _ => lt_of_le_of_lt (Nat.sub_le _ _) (byteLane a j).isLt) ?_ hj
  rw [BitVec.toNat_sub_of_le (BitVec.le_def.2 (by omega))]
  omega

theorem byteLane_and (a b : Word) (j : Nat) :
    byteLane (a &&& b) j = byteLane a j &&& byteLane b j := by
  apply BitVec.eq_of_getLsbD_eq
  intro i hi
  simp only [BitVec.getLsbD_and, byteLane_getLsbD, hi, decide_true, Bool.true_and]

theorem byteLane_or (a b : Word) (j : Nat) :
    byteLane (a ||| b) j = byteLane a j ||| byteLane b j := by
  apply BitVec.eq_of_getLsbD_eq
  intro i hi
  simp only [BitVec.getLsbD_or, byteLane_getLsbD, hi, decide_true, Bool.true_and]

theorem byteLane_xor (a b : Word) (j : Nat) :
    byteLane (a ^^^ b) j = byteLane a j ^^^ byteLane b j := by
  apply BitVec.eq_of_getLsbD_eq
  intro i hi
  simp only [BitVec.getLsbD_xor, byteLane_getLsbD, hi, decide_true, Bool.true_and]

/-- A right shift whose shifted-in bits are masked off acts lane by lane. -/
theorem byteLane_shiftRight_and (w : Word) {s : Nat} {m : BitVec 8}
    (hm : ∀ i < 8, 8 - s ≤ i → m.getLsbD i = false) (j : Nat) :
    byteLane (w >>> s) j &&& m = (byteLane w j >>> s) &&& m := by
  apply BitVec.eq_of_getLsbD_eq
  intro i hi
  simp only [BitVec.getLsbD_and, byteLane_getLsbD, BitVec.getLsbD_ushiftRight]
  by_cases h : 8 - s ≤ i
  · simp [hm i hi h]
  · simp [show s + i < 8 by omega, hi, show s + (8 * j + i) = 8 * j + (s + i) by omega]

end Sys2Proof.Machine
end

