-- ==== Sys2Proof/Laws/LeastSetBit.lean ====
section
/-! SUPPORT. What subtracting 1 does below, at and above the lowest set position (spec/43_least_set_bit.md
R117, R119), and what follows for the two formulas. -/
namespace Sys2Proof.Machine

open Sys2Proof.Safety

theorem exists_lowestSet {w : Word} (h : w ≠ 0#64) : ∃ p, IsLowestSet w p := by
  have e : ∃ p, p < 64 ∧ w.getLsbD p = true := by
    by_contra hc
    push Not at hc
    exact h (BitVec.eq_of_getLsbD_eq fun i hi => by simpa using hc i hi)
  classical
  refine ⟨Nat.find e, (Nat.find_spec e).1, (Nat.find_spec e).2, fun j hj => ?_⟩
  have h1 := Nat.find_min e hj
  have h2 := (Nat.find_spec e).1
  by_contra h3
  exact h1 ⟨by omega, by simpa using h3⟩

/-- R117: w − 1 clears the lowest set bit, sets the bits below it and leaves the bits above it. -/
theorem sub_one_getLsbD {w : Word} {p : Nat} (h : IsLowestSet w p) (j : Nat) :
    (w - 1#64).getLsbD j =
      if j < p then true else if j = p then false else w.getLsbD j := by
  obtain ⟨hp, hb, hl⟩ := h
  have hmod : w.toNat % 2 ^ (p + 1) = 2 ^ p := by
    apply Nat.eq_of_testBit_eq
    intro i
    rw [Nat.testBit_mod_two_pow, Nat.testBit_two_pow]
    rcases Nat.lt_trichotomy i p with h1 | h1 | h1
    · have h2 := hl i h1
      simp only [BitVec.getLsbD] at h2
      simp [h2]
      omega
    · subst h1
      simp only [BitVec.getLsbD] at hb
      simp [hb]
    · simp only [show ¬ i < p + 1 by omega, decide_false, Bool.false_and]
      simp
      omega
  have h0 : 1 ≤ 2 ^ p := Nat.one_le_two_pow
  have hlt : 2 ^ p < 2 ^ (p + 1) := Nat.pow_lt_pow_right (by omega) (by omega)
  have hw : w.toNat = 2 ^ (p + 1) * (w.toNat / 2 ^ (p + 1)) + 2 ^ p := by
    have := Nat.div_add_mod w.toNat (2 ^ (p + 1))
    omega
  have ht : (w - 1#64).toNat = 2 ^ (p + 1) * (w.toNat / 2 ^ (p + 1)) + (2 ^ p - 1) := by
    have := w.isLt
    rw [BitVec.toNat_sub]
    simp
    omega
  rw [BitVec.getLsbD, ht, Nat.testBit_two_pow_mul_add _ (by omega)]
  conv_rhs => rw [BitVec.getLsbD, hw, Nat.testBit_two_pow_mul_add _ hlt]
  rw [Nat.testBit_two_pow_sub_one, Nat.testBit_two_pow]
  rcases Nat.lt_trichotomy j p with h1 | h1 | h1
  · simp [h1]
    omega
  · simp [h1]
  · simp [show ¬ j < p + 1 by omega, show ¬ j < p by omega, show ¬ j = p by omega]

/-- R117: the isolated word is BIT[p]. -/
theorem isolateLowest_eq {w : Word} {p : Nat} (h : IsLowestSet w p) :
    isolateLowest w = bitEntry p := by
  apply BitVec.eq_of_getLsbD_eq
  intro j hj
  unfold isolateLowest
  rw [BitVec.getLsbD_and, BitVec.getLsbD_xor, sub_one_getLsbD h, bitEntry_getLsbD]
  rcases Nat.lt_trichotomy j p with h1 | h1 | h1
  · have h2 := h.2.2 j h1
    simp [h1, h2]
    omega
  · simp [h1, h.2.1, h.1]
  · simp [show ¬ j < p by omega, show ¬ j = p by omega]

/-- R119: `(w - 1) ^ w` is a run of ones over positions 0 to p. -/
theorem sub_one_xor_eq {w : Word} {p : Nat} (h : IsLowestSet w p) :
    (w - 1#64) ^^^ w = lowMaskEntry (p + 1) := by
  have hp := h.1
  apply BitVec.eq_of_getLsbD_eq
  intro j hj
  rw [BitVec.getLsbD_xor, sub_one_getLsbD h, lowMaskEntry_getLsbD (by omega)]
  rcases Nat.lt_trichotomy j p with h1 | h1 | h1
  · have h2 := h.2.2 j h1
    simp [h1, h2]
    omega
  · simp [h1, h.2.1, h.1]
  · simp [show ¬ j < p by omega, show ¬ j = p by omega]
    omega

theorem setPositions_lowMask {i : Nat} (h : i ≤ 64) : setPositions (lowMaskEntry i) = Finset.range i := by
  ext j
  rw [mem_setPositions, lowMaskEntry_getLsbD h]
  simp
  omega

/-- R118: the index formula answers the lowest set position. -/
theorem lowestIndex_eq {w : Word} {p : Nat} (h : IsLowestSet w p) : lowestIndex w = p := by
  have hw : w ≠ 0#64 := by
    rintro rfl
    simpa using h.2.1
  have hp := h.1
  unfold lowestIndex
  rw [if_neg hw, sub_one_xor_eq h, popcount_eq_card, setPositions_lowMask (by omega)]
  simp

end Sys2Proof.Machine
end

