-- ==== Sys2Proof/Laws/Select.lean ====
section
/-! SUPPORT. Ranks within a set of positions, and what `sel1` finds (spec/44_select.md R124): the k-th
member exists exactly below the size, and is unique. -/
namespace Sys2Proof.Machine

open Sys2Proof.Safety

/-- The positions 0 to i are set or clear, and not both. -/
theorem card_prefix (w : Word) {i : Nat} (hi : i ≤ 63) :
    ((setPositions w).filter (· ≤ i)).card + ((clearPositions w).filter (· ≤ i)).card = i + 1 := by
  have h := Finset.card_filter_add_card_filter_not (s := Finset.range (i + 1))
    (p := fun j => w.getLsbD j = true)
  have e1 : (setPositions w).filter (· ≤ i) =
      (Finset.range (i + 1)).filter (fun j => w.getLsbD j = true) := by
    ext j
    simp only [Finset.mem_filter, mem_setPositions, Finset.mem_range]
    exact ⟨fun h => ⟨by omega, h.1.2⟩, fun h => ⟨⟨by omega, h.2⟩, by omega⟩⟩
  have e2 : (clearPositions w).filter (· ≤ i) =
      (Finset.range (i + 1)).filter (fun j => ¬ w.getLsbD j = true) := by
    ext j
    simp only [Finset.mem_filter, mem_clearPositions, Finset.mem_range, Bool.not_eq_true]
    exact ⟨fun h => ⟨by omega, h.1.2⟩, fun h => ⟨⟨by omega, h.2⟩, by omega⟩⟩
  rw [e1, e2, h, Finset.card_range]

/-- Counting up to a member is counting below it, and it. -/
theorem card_le_eq_card_lt (S : Finset Nat) {p : Nat} (hp : p ∈ S) :
    (S.filter (· ≤ p)).card = (S.filter (· < p)).card + 1 := by
  have e : S.filter (· ≤ p) = insert p (S.filter (· < p)) := by
    ext x
    simp only [Finset.mem_filter, Finset.mem_insert]
    constructor
    · intro h
      rcases Nat.lt_or_ge x p with h1 | h1
      · exact .inr ⟨h.1, h1⟩
      · exact .inl (by omega)
    · rintro (rfl | h)
      · exact ⟨hp, le_refl _⟩
      · exact ⟨h.1, by omega⟩
  rw [e, Finset.card_insert_of_notMem (by simp)]

/-- A set with more than k members has one of rank k + 1. -/
theorem exists_kth (S : Finset Nat) {k : Nat} (h : k < S.card) :
    ∃ p ∈ S, (S.filter (· ≤ p)).card = k + 1 := by
  induction S using Finset.induction_on_max with
  | empty => simp at h
  | insert a S ha ih =>
    have hn : a ∉ S := fun hh => lt_irrefl _ (ha a hh)
    rw [Finset.card_insert_of_notMem hn] at h
    rcases Nat.lt_or_ge k S.card with h1 | h1
    · obtain ⟨p, hp, he⟩ := ih h1
      refine ⟨p, Finset.mem_insert_of_mem hp, ?_⟩
      rw [Finset.filter_insert, if_neg (by have := ha p hp; omega), he]
    · refine ⟨a, Finset.mem_insert_self _ _, ?_⟩
      rw [Finset.filter_true_of_mem, Finset.card_insert_of_notMem hn]
      · omega
      · intro x hx
        rcases Finset.mem_insert.1 hx with rfl | hx
        · exact le_refl _
        · exact (ha x hx).le

/-- Two members of the same rank are equal. -/
theorem kth_unique (S : Finset Nat) {p q : Nat} (hp : p ∈ S) (hq : q ∈ S)
    (h : (S.filter (· ≤ p)).card = (S.filter (· ≤ q)).card) : p = q := by
  by_contra hne
  wlog hlt : p < q generalizing p q
  · exact this hq hp h.symm (Ne.symm hne) (by omega)
  have hs : S.filter (· ≤ p) ⊂ S.filter (· ≤ q) := by
    constructor
    · intro x hx
      rw [Finset.mem_filter] at hx ⊢
      exact ⟨hx.1, by omega⟩
    · intro hs
      have h2 := (Finset.mem_filter.1 (hs (Finset.mem_filter.2 ⟨hq, le_refl _⟩))).2
      omega
  have := Finset.card_lt_card hs
  omega

/-- The test of R124 in terms of sets of positions. -/
theorem isKthSet_iff (w : Word) (k : Nat) {p : Nat} (hp : p < 64) :
    isKthSet w k p = true ↔
      p ∈ setPositions w ∧ ((setPositions w).filter (· ≤ p)).card = k + 1 := by
  unfold isKthSet
  rw [popcount_eq_card, setPositions_and_lowMask _ (by omega)]
  simp [hp]

/-- R124, found: `sel1` answers the member of rank k + 1. -/
theorem sel1_found (w : Word) {k : Nat} (h : k < (setPositions w).card) :
    ∃ p ∈ setPositions w, ((setPositions w).filter (· ≤ p)).card = k + 1 ∧ sel1 w k = p := by
  obtain ⟨p, hp, he⟩ := exists_kth _ h
  refine ⟨p, hp, he, ?_⟩
  unfold sel1
  rw [if_pos (by rwa [popcount_eq_card])]
  cases hf : (List.range 64).find? (isKthSet w k) with
  | none =>
    rw [List.find?_eq_none] at hf
    have h64 := ((mem_setPositions w p).1 hp).1
    exact absurd ((isKthSet_iff w k h64).2 ⟨hp, he⟩) (hf p (by simpa using h64))
  | some q =>
    have h1 := List.find?_some hf
    have h2 := List.mem_of_find?_eq_some hf
    have h3 := (isKthSet_iff w k (by simpa using h2)).1 h1
    simp [kth_unique _ hp h3.1 (by omega)]

/-- R124, not found. -/
theorem sel1_notFound (w : Word) {k : Nat} (h : (setPositions w).card ≤ k) : sel1 w k = -1 := by
  unfold sel1
  rw [if_neg (by rw [popcount_eq_card]; omega)]

end Sys2Proof.Machine
end

