-- ==== Sys2Proof/Tests/Slice0.lean ====
section
/-! SUPPORT. Tests. Expected values are the spec's: spec/95_test_vectors.md §1 (the source's scenarios, S1.1
to S4.3) and §2 (derived vectors), and the worked examples and traces of the rules. The `witness_`
theorems show that the hypotheses of each statement can be met, at the boundary of each clause. -/
namespace Sys2Proof.Tests

open Sys2Proof.Machine Sys2Proof.Safety

/-! Well-formedness: an ill-formed word for each check (spec/95_test_vectors.md §2.6) -/

theorem test_wf_refuses_reservedBit5 : reservedBitsZero 0x0000_0025#32 = false := by decide
theorem test_wf_refuses_reservedBit31 : reservedBitsZero 0x8000_0005#32 = false := by decide
theorem test_wf_refuses_opcode00 : opcodeAssigned 0x0000_0000#32 = false := by decide
theorem test_wf_refuses_opcode0E : opcodeAssigned 0x0000_000E#32 = false := by decide
theorem test_wf_refuses_opcode14 : opcodeAssigned 0x0000_0014#32 = false := by decide
theorem test_wf_refuses_opcode1F : opcodeAssigned 0x0000_001F#32 = false := by decide
theorem test_wf_accepts_countOnes : wfCommandWord 0x0000_0005#32 = true := by decide

/-! Decoding rejects by name (§2.6) -/

theorem test_decode_rejects_reservedBits :
    decode 0x8000_0005#32 = .illegal .reservedBits := by decide
theorem test_decode_rejects_reservedOpcode :
    decode 0x0000_000F#32 = .illegal .reservedOpcode := by decide
theorem test_decodeTableWord_select0 : decodeTableWord 32 0x0D = some .select0 := by decide
theorem test_decodeTableWord_illegal : decodeTableWord 32 0x25 = none := by decide

/-! The commands, as vectors of §1 and §2 -/

theorem test_get_S1_3 : resultOf .get 5#64 1#64 = some 0#64 := by decide
theorem test_get_top : resultOf .get 0x8000_0000_0000_0000#64 63#64 = some 1#64 := by decide
theorem test_set_bit2 : resultOf .set 1#64 2#64 = some 5#64 := by decide
theorem test_set_top : resultOf .set 0#64 63#64 = some 0x8000_0000_0000_0000#64 := by decide
theorem test_clear_bit0 : resultOf .clear 5#64 0#64 = some 4#64 := by decide
theorem test_clear_top : resultOf .clear allOnes 63#64 = some 0x7FFF_FFFF_FFFF_FFFF#64 := by
  decide
theorem test_flip_top : resultOf .flip 5#64 63#64 = some 0x8000_0000_0000_0005#64 := by decide
theorem test_flip_32 : resultOf .flip allOnes 32#64 = some 0xFFFF_FFFE_FFFF_FFFF#64 := by
  decide
theorem test_countOnes_S2_1 : resultOf .countOnes allOnes 0#64 = some 64#64 := by decide
theorem test_countOnes_mixed : resultOf .countOnes 0x0123_4567_89AB_CDEF#64 0#64 = some 32#64 := by
  decide
theorem test_countZeros_F0 : resultOf .countZeros 0xF0#64 0#64 = some 60#64 := by decide
theorem test_countZeros_zero : resultOf .countZeros 0#64 0#64 = some 64#64 := by decide
theorem test_countBit_zeros : resultOf .countBit 0xF0#64 0#64 = some 60#64 := by decide
theorem test_countBit_ones : resultOf .countBit 0xF0#64 1#64 = some 4#64 := by decide
theorem test_rank1_S1_5 : resultOf .rank1 5#64 2#64 = some 2#64 := by decide
theorem test_rank1_S4_2 : resultOf .rank1 0x8000_0000_0000_0000#64 63#64 = some 1#64 := by
  decide
theorem test_rank0_first : resultOf .rank0 0#64 0#64 = some 1#64 := by decide
theorem test_rank0_31 : resultOf .rank0 0x0123_4567_89AB_CDEF#64 31#64 = some 12#64 := by
  decide
theorem test_leastSetBit_F0 : resultOf .leastSetBit 0xF0#64 0#64 = some 0x10#64 := by decide
theorem test_leastSetBit_S3_2 : resultOf .leastSetBit 0#64 0#64 = some 0#64 := by decide
theorem test_leastSetBitIndex_S3_3 : resultOf .leastSetBitIndex 0#64 0#64 = some allOnes := by
  decide
theorem test_leastSetBitIndex_top :
    resultOf .leastSetBitIndex 0x8000_0000_0000_0000#64 0#64 = some 63#64 := by decide
theorem test_select1_mid : resultOf .select1 0x0123_4567_89AB_CDEF#64 13#64 = some 17#64 := by
  decide
theorem test_select1_S1_8 : resultOf .select1 5#64 2#64 = some allOnes := by decide
theorem test_select0_61 : resultOf .select0 5#64 61#64 = some 63#64 := by decide
theorem test_select0_largeRank : resultOf .select0 0#64 127#64 = some allOnes := by decide
theorem test_lutBit_8 : resultOf .lutBit 0#64 8#64 = some 0x100#64 := by decide
theorem test_lutBit_64_violates : resultOf .lutBit 0#64 64#64 = none := by decide
theorem test_lutNotBit_7 : resultOf .lutNotBit 0#64 7#64 = some 0xFFFF_FFFF_FFFF_FF7F#64 := by
  decide
theorem test_lutNotBit_63 : resultOf .lutNotBit 0#64 63#64 = some 0x7FFF_FFFF_FFFF_FFFF#64 := by
  decide
theorem test_lutLowMask_31 : resultOf .lutLowMask 0#64 31#64 = some 0x7FFF_FFFF#64 := by decide
theorem test_lutLowMask_64 : resultOf .lutLowMask 0#64 64#64 = some allOnes := by decide
theorem test_lutHighMask_8 : resultOf .lutHighMask 0#64 8#64 = some 0xFFFF_FFFF_FFFF_FF00#64 := by
  decide
theorem test_lutHighMask_64 : resultOf .lutHighMask 0#64 64#64 = some 0#64 := by decide

/-! The circuits: the traces of R101 and of spec/44_select.md §3 -/

theorem test_swarPairs_R101 : swarPairs 0x0123_4567_89AB_CDEF#64 = 0x0112_4556_4556_899A#64 := by
  decide
theorem test_byteCounts_R101 : byteCounts 0x0123_4567_89AB_CDEF#64 = 0x0103_0305_0305_0507#64 := by
  decide
theorem test_bytePrefix_R101 : bytePrefix 0x0123_4567_89AB_CDEF#64 = 0x201F_1C19_1411_0C07#64 := by
  decide
theorem test_select_offset : selectByteOffset 0x0123_4567_89AB_CDEF#64 13 = 16 := by decide
theorem test_select_residual : selectResidual 0x0123_4567_89AB_CDEF#64 13 16 = 1 := by decide
theorem test_select_inByteCounts : inByteCounts 0xAB#64 = 0x0504_0403_0302_0201#64 := by
  decide
theorem test_selectDatapath : selectDatapath 0x0123_4567_89AB_CDEF#64 13 = 17 := by decide
theorem test_selectDatapath_notFound : selectDatapath 5#64 2 = -1 := by decide
/-- R132: outside its domain the comparison is wrong (lane x = 0, y = 128 reads as false). -/
theorem test_leq8_outOfDomain : byteLane (leq8 0#64 0x80#64) 0 = 0#8 := by decide

/-! Steps -/

/-- A state with the given operands on the ports. -/
def stateOf (a b : Word) : State :=
  { State.reset with current := { host := 0, cmd := 0#32, a := a, b := b } }

/-- A request from host h. -/
def req (h : Nat) (i : Instr) (a b : Word) : Request := { host := h, cmd := encode i, a := a, b := b }

/-- A state in which the given moves are scheduled. -/
def scheduled (es : List Event) : State := { State.reset with events := es }

/-- The violating GET of §2.7. -/
def violating : Request := req 0 .get 5#64 64#64

/-- An illegal command (§2.6). -/
def illegal : Request := { host := 0, cmd := 0x0000_0025#32, a := 5#64, b := 64#64 }

/-- A command accepted and not answered, with its response (LUT_BIT of index 8, §2.5). -/
def owed : InFlight :=
  { request := req 3 .lutBit 0#64 8#64, response := { host := 3, r := 0x100#64, status := .ok } }

/-- A state in which the engine owes that response. -/
def owing : State := { State.reset with inFlight := [owed] }

/-- The responses that the outcome of k steps leaves in flight. -/
def owedAfter (k : Nat) (s : State) : List Response :=
  match core.run k s with
  | .next t => t.inFlight.map (·.response)
  | _ => []

/-- The fault of an outcome. -/
def faultOf (o : Result) : Option Fault :=
  match o with
  | .fault f => some f
  | _ => none

/-- The refusal of an outcome. -/
def refusalOf (o : Result) : Option Refusal :=
  match o with
  | .refused f => some f
  | _ => none

theorem test_step_illegal :
    owedAfter 1 (scheduled [.issue illegal]) =
      [{ host := 0, r := 0#64, status := .illegalCommand }] := by decide
theorem test_step_violation :
    faultOf (step (scheduled [.issue violating])) =
      some (.contractViolation .bitIndex violating) := by decide
theorem test_step_inReset :
    refusalOf (step { scheduled [.issue illegal] with rst := true }) =
      some (.commandInReset illegal) := by decide
theorem test_reset_discards :
    owedAfter 2 (scheduled [.issue (req 1 .get 5#64 2#64), .assertReset]) = [] := by decide
theorem test_two_hosts_in_order :
    returned 4 (scheduled [.issue (req 1 .get 5#64 2#64), .issue (req 2 .rank1 5#64 2#64), .deliver,
      .deliver]) =
      [{ host := 1, r := 1#64, status := .ok }, { host := 2, r := 2#64, status := .ok }] := by
  decide
/-- R188: the run has ended once the response is received, and not before. -/
theorem test_lastAnswered :
    lastAnswered 1 (scheduled [.issue (req 0 .get 5#64 2#64)]) false = false ∧
    lastAnswered 2 (scheduled [.issue (req 0 .get 5#64 2#64)]) false = true := by decide
/-- R179, R188: a last command that reset discards is never answered. -/
theorem test_lastAnswered_discarded :
    lastAnswered 3 (scheduled [.issue (req 0 .get 5#64 2#64), .assertReset]) false = false := by decide
theorem test_withFetchWord :
    owedAfter 1 (State.reset.withFetchWord 32 0x06) =
      [{ host := 0, r := 64#64, status := .ok }] := by decide
theorem test_violation_text : Violation.negativeSelectRank.text = "negative select rank" := rfl

/-! Witnesses: the hypotheses of each statement can be met -/

theorem witness_StepRunsDecodedCommand :
    (scheduled [.issue (req 0 .get 5#64 2#64)]).events = .issue (req 0 .get 5#64 2#64) :: [] ∧
    (scheduled [.issue (req 0 .get 5#64 2#64)]).rst = false ∧
    decode (req 0 .get 5#64 2#64).cmd = .legal .get := by decide
theorem witness_IllegalCommandResponse :
    (scheduled [.issue illegal, .issue (req 0 .get 5#64 2#64)]).events =
      .issue illegal :: .issue (req 0 .get 5#64 2#64) :: [] ∧
    (scheduled [.issue illegal, .issue (req 0 .get 5#64 2#64)]).rst = false ∧
    decode illegal.cmd = .illegal .reservedBits ∧
    responseAlone (req 0 .get 5#64 2#64) = some { host := 0, r := 1#64, status := .ok } := by
  decide
theorem witness_ReservedOpcodesAreIllegal :
    (scheduled [.issue { illegal with cmd := 0x1F#32 }]).events =
      .issue { illegal with cmd := 0x1F#32 } :: [] ∧
    (scheduled [.issue { illegal with cmd := 0x1F#32 }]).rst = false ∧
    (0x1F#32).toNat % 32 ∈ [0x00, 0x0E, 0x0F, 0x14, 0x15, 0x16, 0x17, 0x18, 0x19, 0x1A, 0x1B, 0x1C,
      0x1D, 0x1E, 0x1F] := by decide
theorem witness_ReservedBitsAreIllegal :
    (scheduled [.issue illegal]).events = .issue illegal :: [] ∧
    (scheduled [.issue illegal]).rst = false ∧ 5 ≤ 5 ∧ illegal.cmd.getLsbD 5 = true := by decide
theorem witness_ResetLeavesEngineIdle : requestInContract (req 0 .get 5#64 2#64) = true := by
  decide
theorem witness_ResetDiscardsInFlight :
    ({ owing with events := [.assertReset, .deliver] } : State).events = .assertReset :: [.deliver] ∧
    owing.inFlight ≠ [] ∧ ∀ q, Event.issue q ∉ [Event.deliver] := by
  exact ⟨rfl, by decide, by simp⟩
theorem witness_NothingHappensDuringReset_issue :
    ({ scheduled [.issue illegal] with rst := true } : State).rst = true ∧
    ({ scheduled [.issue illegal] with rst := true } : State).events = .issue illegal :: [] := by
  decide
theorem witness_NothingHappensDuringReset_other :
    ({ scheduled [.deliver] with rst := true } : State).rst = true ∧
    ∀ q es, ({ scheduled [.deliver] with rst := true } : State).events ≠ .issue q :: es := by
  exact ⟨rfl, by intro q es h; simp [scheduled] at h⟩
theorem witness_ReleaseLeavesEngineIdle :
    Inv { scheduled [.releaseReset, .issue (req 0 .get 5#64 2#64)] with rst := true } ∧
    ({ scheduled [.releaseReset, .issue (req 0 .get 5#64 2#64)] with rst := true } : State).events =
      .releaseReset :: [.issue (req 0 .get 5#64 2#64)] ∧
    responseAlone (req 0 .get 5#64 2#64) = some { host := 0, r := 1#64, status := .ok } :=
  ⟨⟨by decide, by simp [scheduled, State.reset]⟩, rfl, by decide⟩
/-- GET, SET, CLEAR, FLIP, RANK1, RANK0, LUT_BIT, LUT_NOT_BIT: both ends of each clause. -/
theorem witness_indexClauses :
    (0 ≤ sint (stateOf 5#64 0#64).current.b ∧ sint (stateOf 5#64 0#64).current.b ≤ 63) ∧
    (0 ≤ sint (stateOf 5#64 63#64).current.b ∧ sint (stateOf 5#64 63#64).current.b ≤ 63) ∧
    sint (stateOf 5#64 allOnes).current.b < 0 ∧ 63 < sint (stateOf 5#64 64#64).current.b := by
  decide
theorem witness_CountBitCountsOccurrences :
    sint (stateOf 5#64 1#64).current.b = 1 ∧ sint (stateOf 5#64 0#64).current.b = 0 ∧
    (sint (stateOf 5#64 2#64).current.b ≠ 0 ∧ sint (stateOf 5#64 2#64).current.b ≠ 1) := by decide
theorem witness_LeastSetBitIndexOfLowest :
    (stateOf 0#64 0#64).current.a = 0#64 ∧ (stateOf 1#64 0#64).current.a ≠ 0#64 := by decide
/-- SELECT1 on w = 5: two set positions, so k = 1 is found, k = 2 is not, k = −1 violates. -/
theorem witness_Select1FindsKthSet :
    (0 ≤ sint (stateOf 5#64 1#64).current.b ∧
      sint (stateOf 5#64 1#64).current.b < (setPositions 5#64).card) ∧
    (0 ≤ sint (stateOf 5#64 2#64).current.b ∧
      (setPositions 5#64).card ≤ sint (stateOf 5#64 2#64).current.b) ∧
    sint (stateOf 5#64 allOnes).current.b < 0 := by decide
/-- SELECT0 on w = 5: 62 clear positions. -/
theorem witness_Select0FindsKthClear :
    (0 ≤ sint (stateOf 5#64 61#64).current.b ∧
      sint (stateOf 5#64 61#64).current.b < (clearPositions 5#64).card) ∧
    (0 ≤ sint (stateOf 5#64 62#64).current.b ∧
      (clearPositions 5#64).card ≤ sint (stateOf 5#64 62#64).current.b) ∧
    sint (stateOf 5#64 allOnes).current.b < 0 := by decide
/-- LUT_LOW_MASK, LUT_HIGH_MASK: both ends of each clause. -/
theorem witness_maskClauses :
    (0 ≤ sint (stateOf 0#64 0#64).current.b ∧ sint (stateOf 0#64 63#64).current.b ≤ 63) ∧
    sint (stateOf 0#64 64#64).current.b = 64 ∧
    sint (stateOf 0#64 allOnes).current.b < 0 ∧ 64 < sint (stateOf 0#64 65#64).current.b := by decide
theorem witness_AnswersExactlyInContract :
    inContract .select0 (sint (stateOf 0#64 0#64).current.b) = true ∧
    inContract .select0 (sint (stateOf 0#64 allOnes).current.b) = false := by decide
theorem witness_StepStopsOnlyOnViolation :
    faultOf (step (scheduled [.issue violating])) =
      some (.contractViolation .bitIndex violating) ∧
    refusalOf (step { scheduled [.issue violating] with rst := true }) =
      some (.commandInReset violating) := by decide
theorem witness_ViolationLeavesOnlyResultOpen :
    (scheduled [.issue violating]).events = .issue violating :: [] ∧
    (scheduled [.issue violating]).rst = false ∧ decode violating.cmd = .legal .get ∧
    inContract .get (sint violating.b) = false := by decide
theorem witness_IgnoredOperandsDoNotMatter :
    Instr.countOnes ∈ [Instr.countOnes, .countZeros, .leastSetBit, .leastSetBitIndex] ∧
    Instr.lutHighMask ∈ [Instr.lutBit, .lutNotBit, .lutLowMask, .lutHighMask] := by decide
theorem witness_ResponseDependsOnCommandOnly :
    (scheduled [.issue violating]).events = .issue violating :: [] ∧
    (scheduled [.issue violating]).rst = false ∧
    (scheduled [.issue illegal]).events = .issue illegal :: [] ∧
    (scheduled [.issue illegal]).rst = false := by decide
/-- ResponseDependsOnCommandOnly: one command from two hosts. -/
theorem witness_sameCommand_twoHosts :
    (req 1 .get 5#64 2#64).cmd = (req 2 .get 5#64 2#64).cmd ∧
    (req 1 .get 5#64 2#64).a = (req 2 .get 5#64 2#64).a ∧
    (req 1 .get 5#64 2#64).b = (req 2 .get 5#64 2#64).b := by decide
theorem witness_IntegerResultsInRange :
    Instr.select1 ∈ [Instr.get, .countOnes, .countZeros, .countBit, .rank1, .rank0,
      .leastSetBitIndex, .select1, .select0] ∧
    Gives .select1 5#64 2#64 allOnes ∧ sint allOnes = -1 :=
  ⟨by decide, test_select1_S1_8, by decide⟩
theorem witness_CommandsMeetSpecification :
    inContract .leastSetBit (sint (stateOf 0xF0#64 allOnes).current.b) = true ∧
    inContract .lutBit (sint (stateOf 0#64 63#64).current.b) = true ∧
    inContract .lutLowMask (sint (stateOf 0#64 64#64).current.b) = true := by decide
/-- BIT[8] is 0x100 (§2.5), bit by bit. -/
theorem witness_answer_lutBit : Answers .lutBit 0#64 8 0x100#64 := by
  unfold Answers
  decide
theorem witness_allowed (q : Request) (i : Instr) (r : Word) (hc : q.cmd = encode i)
    (ha : Answers i q.a (sint q.b) r) :
    ResponseAllowed q { host := q.host, r := r, status := .ok } := by
  refine ⟨rfl, fun h => ?_, fun j hj => ⟨rfl, fun _ => ?_⟩⟩
  · rw [hc] at h; cases i <;> exact absurd h (by decide)
  · have e : decode (encode i) = decode (encode j) := by rw [← hc, ← hj]
    rw [decode_encode, decode_encode] at e
    cases e
    exact ha
theorem witness_owing_inv : Inv owing := by
  refine ⟨by decide, ?_⟩
  intro e he
  have he : e = owed := by simpa [owing] using he
  subst he
  exact witness_allowed (req 3 .lutBit 0#64 8#64) .lutBit 0x100#64 rfl
    witness_answer_lutBit
theorem witness_StepKeepsInvariant :
    Inv owing ∧ step owing = .next { State.reset with out := some owed.response } :=
  ⟨witness_owing_inv, rfl⟩
theorem witness_ReturnedResponseIsAllowed :
    Inv owing ∧ EngineStep owing { State.reset with out := some owed.response } :=
  ⟨witness_owing_inv, rfl⟩
/-- With a move after the return, and with nothing owed. -/
theorem witness_ReturnGivesOldestResponse :
    ({ owing with events := [.deliver, .assertReset] } : State).rst = false ∧
    nextEvent { owing with events := [.deliver, .assertReset] } = .deliver ∧
    ({ owing with events := [.deliver, .assertReset] } : State).inFlight = owed :: [] ∧
    nextEvent State.reset = .deliver ∧ State.reset.inFlight = [] := by decide
/-- With the schedule at its end, and with more moves after the returns. -/
theorem witness_OwedResponsesDrainInOrder :
    (owing.events = [] ∧ owing.rst = false ∧ owing.inFlight ≠ []) ∧
    ∀ e ∈ ({ owing with events := [.deliver, .assertReset] } : State).events.take
      owing.inFlight.length, e = .deliver := by decide
/-- A last command with a response, one that violates its contract, and one discarded by reset. -/
theorem witness_RunEndsWithLastResponse :
    ((scheduled [.issue (req 0 .get 5#64 2#64)]).events = [.issue (req 0 .get 5#64 2#64)] ∧
      (responseAlone (req 0 .get 5#64 2#64)).isSome = true) ∧
    ((scheduled [.issue violating]).events = [.issue violating] ∧ responseAlone violating = none) ∧
    (({ owing with events := [.assertReset, .releaseReset] } : State).events =
      .assertReset :: [.releaseReset] ∧ owing.inFlight ≠ [] ∧
      ∀ q, .issue q ∉ [Event.releaseReset]) :=
  ⟨by decide, by decide, rfl, by decide, by simp⟩
theorem witness_EveryInterleavingGivesOwnResponses :
    (scheduled [.issue (req 1 .get 5#64 2#64), .deliver, .issue (req 2 .get 5#64 1#64)]).rst = false ∧
    (∀ e ∈ (scheduled [.issue (req 1 .get 5#64 2#64), .deliver,
      .issue (req 2 .get 5#64 1#64)]).events.take 3, e ≠ .assertReset) ∧
    owedAfter 3 (scheduled [.issue (req 1 .get 5#64 2#64), .deliver,
      .issue (req 2 .get 5#64 1#64)]) = [{ host := 2, r := 0#64, status := .ok }] := by
  decide
/-- BitAccessLaws, BitAccessDerivedLaws, RankLaws, RankFormulationsAgree, TableLaws: the bounds of the
indices. -/
theorem witness_indexLaws :
    (63 ≤ 63 ∧ 62 ≤ 63 ∧ 62 ≠ 63 ∧ 1 ≤ 63 ∧ 64 ≤ 64 : Prop) := by decide
theorem witness_LeastSetBitLaws : 0xF0#64 ≠ 0#64 ∧ 3 < (4#64).toNat := by decide
/-- SelectRankInverse on w = 5: k = 1 is below its count 2. -/
theorem witness_SelectRankInverse :
    Gives .countOnes 5#64 0#64 2#64 ∧ 1 < (2#64).toNat ∧ 2 ^ 63 - 1 < 2 ^ 63 :=
  ⟨(by decide : resultOf .countOnes 5#64 0#64 = some 2#64), by decide, by decide⟩
/-- SelectZeroRankInverse on w = 5: k = 61 is below its count 62. -/
theorem witness_SelectZeroRankInverse :
    Gives .countZeros 5#64 0#64 62#64 ∧ 61 < (62#64).toNat :=
  ⟨(by decide : resultOf .countZeros 5#64 0#64 = some 62#64), by decide⟩
theorem witness_LaneComparisonInDomain :
    ∀ j < 8, (byteLane 0x7F7F_7F7F_7F7F_7F7F#64 j).toNat < 128 ∧ (byteLane 0#64 j).toNat < 128 := by
  decide
theorem witness_laneClauses : 7 < 8 ∧ byteLane 0xFF#64 0 ≠ 0#8 ∧ byteLane 0xFF#64 1 = 0#8 := by decide

end Sys2Proof.Tests
end

/-! The command set as a whole (spec/00_scope.md): in contract a command has exactly one right answer,
integer answers are −1 or lie in [0, 64], and a response depends on CMD, A and B alone. -/
namespace Sys2Proof.Proofs

open Sys2Proof.Machine Sys2Proof.Safety

/-! Words pinned by their bits or by their value -/

/-- A word is pinned by what its 64 bits are. -/
theorem bits_iff_eq {w : Word} {f : Nat → Bool} (hw : ∀ j < 64, w.getLsbD j = f j) (r : Word) :
    (∀ j < 64, r.getLsbD j = f j) ↔ r = w := by
  constructor
  · exact fun hr => BitVec.eq_of_getLsbD_eq fun j hj => (hr j hj).trans (hw j hj).symm
  · rintro rfl
    exact hw

/-- A word is pinned by its value. -/
theorem toNat_eq_iff_eq_toWord {n : Nat} (hn : n ≤ 64) (r : Word) : r.toNat = n ↔ r = toWord n := by
  have hv : (toWord n).toNat = n := toNat_arg (by omega)
  rw [← BitVec.toNat_inj, hv]

theorem toWord_neg_one : toWord (-1) = allOnes := by decide

theorem bitAt_eq_toWord (w : Word) (i : Nat) :
    bitAt w i = toWord ((if w.getLsbD i then 1 else 0 : Nat) : Int) := by
  unfold bitAt
  cases w.getLsbD i <;> decide

/-! Counts as sizes of sets of positions -/

theorem card_setPositions_le (w : Word) : (setPositions w).card ≤ 64 := by
  have := card_set_add_card_clear w
  omega

theorem card_clearPositions_le (w : Word) : (clearPositions w).card ≤ 64 := by
  have := card_set_add_card_clear w
  omega

theorem popcount_not (w : Word) : popcount (~~~w) = (clearPositions w).card := by
  rw [popcount_eq_card, setPositions_not]

theorem sub_popcount (w : Word) : (64 - popcount w : Int) = (clearPositions w).card := by
  have := card_set_add_card_clear w
  rw [popcount_eq_card]
  omega

/-- R96: the mask leaves A for b = 1 and complements it for b = 0. -/
theorem xor_countMask (w : Word) (b : Bool) : w ^^^ countMask b = if b then w else ~~~w := by
  cases b
  · exact BitVec.xor_allOnes
  · exact BitVec.xor_zero

theorem popcount_and_lowMask (w : Word) {i : Nat} (hi : i ≤ 63) :
    popcount (w &&& lowMaskEntry (i + 1)) = ((setPositions w).filter (· ≤ i)).card := by
  rw [popcount_eq_card, setPositions_and_lowMask w (by omega)]
  simp only [Nat.lt_succ_iff]

/-- R108: the clear bits among positions 0 to i are the other ones of these i + 1. -/
theorem sub_popcount_and_lowMask (w : Word) {i : Nat} (hi : i ≤ 63) :
    ((i + 1) - popcount (w &&& lowMaskEntry (i + 1)) : Int) =
      ((clearPositions w).filter (· ≤ i)).card := by
  have := card_prefix w hi
  rw [popcount_and_lowMask w hi]
  omega

/-! The lowest set position -/

theorem not_isLowestSet_zero (p : Nat) : ¬IsLowestSet 0#64 p := by simp [IsLowestSet]

theorem isLowestSet_iff_eq {w : Word} {p : Nat} (hp : IsLowestSet w p) (q : Nat) :
    IsLowestSet w q ↔ q = p := by
  constructor
  · intro hq
    obtain ⟨-, hpSet, hpLow⟩ := hp
    obtain ⟨-, hqSet, hqLow⟩ := hq
    rcases Nat.lt_trichotomy q p with hlt | heq | hlt
    · simp [hpLow q hlt] at hqSet
    · exact heq
    · simp [hqLow p hlt] at hpSet
  · rintro rfl
    exact hp

/-- R116, R117, R120: exactly `isolateLowest` is right for LEAST_SET_BIT. -/
theorem answers_leastSetBit_iff (a : Word) (n : Int) (r : Word) :
    Answers .leastSetBit a n r ↔ r = isolateLowest a := by
  unfold Answers
  by_cases ha : a = 0#64
  · subst ha
    simp [not_isLowestSet_zero, isolateLowest]
  · obtain ⟨p, hp⟩ := exists_lowestSet ha
    have hbits := bits_iff_eq (fun j hj => by simpa [hj] using bitEntry_getLsbD p j) r
    simp [ha, isLowestSet_iff_eq hp, isolateLowest_eq hp, hbits]

/-- R118, R119: exactly `lowestIndex` is right for LEAST_SET_BIT_INDEX. -/
theorem answers_leastSetBitIndex_iff (a : Word) (n : Int) (r : Word) :
    Answers .leastSetBitIndex a n r ↔ r = toWord (lowestIndex a) := by
  unfold Answers
  by_cases ha : a = 0#64
  · subst ha
    simp [not_isLowestSet_zero, lowestIndex, toWord_neg_one]
  · obtain ⟨p, hp⟩ := exists_lowestSet ha
    have hp64 : p ≤ 64 := hp.1.le
    simp [ha, isLowestSet_iff_eq hp, lowestIndex_eq hp, toNat_eq_iff_eq_toWord hp64]

/-! The k-th position -/

/-- A member with k members below it has rank k + 1. -/
theorem card_lt_eq_iff_card_le (S : Finset Nat) {p : Nat} (hp : p ∈ S) (k : Nat) :
    (S.filter (· < p)).card = k ↔ (S.filter (· ≤ p)).card = k + 1 := by
  rw [card_le_eq_card_lt S hp]
  omega

/-- R124: exactly `sel1` is the k-th set position, or not found. -/
theorem isKthOf_setPositions_iff (w : Word) (k : Nat) (r : Word) :
    IsKthOf (setPositions w) k r ↔ r = toWord (sel1 w k) := by
  unfold IsKthOf
  rcases Nat.lt_or_ge k (setPositions w).card with hk | hk
  · obtain ⟨p, hp, hrank, hsel⟩ := sel1_found w hk
    have hp64 : p ≤ 64 := ((mem_setPositions w p).1 hp).1.le
    rw [hsel, ← toNat_eq_iff_eq_toWord hp64]
    constructor
    · rintro (⟨hle, -⟩ | ⟨hr, hcard⟩)
      · omega
      · have hrankR := (card_lt_eq_iff_card_le _ hr k).1 hcard
        exact kth_unique _ hr hp (hrankR.trans hrank.symm)
    · rintro rfl
      exact .inr ⟨hp, (card_lt_eq_iff_card_le _ hp k).2 hrank⟩
  · rw [sel1_notFound w hk, toWord_neg_one]
    constructor
    · rintro (⟨-, hr⟩ | ⟨hr, hcard⟩)
      · exact hr
      · have hrankR := (card_lt_eq_iff_card_le _ hr k).1 hcard
        have hle := Finset.card_filter_le (setPositions w) (· ≤ r.toNat)
        omega
    · exact fun hr => .inl ⟨hk, hr⟩

/-- R126: the k-th clear position is the k-th set position of the complement. -/
theorem isKthOf_clearPositions_iff (w : Word) (k : Nat) (r : Word) :
    IsKthOf (clearPositions w) k r ↔ r = toWord (sel1 (~~~w) k) := by
  rw [← setPositions_not, isKthOf_setPositions_iff]

/-! Every command -/

/-- R96: exactly the count of the masked word is right for COUNT_BIT. -/
theorem answers_countBit_iff (a : Word) (n : Int) (r : Word) :
    Answers .countBit a n r ↔ r = toWord (popcount (a ^^^ countMask (decide (n = 1)))) := by
  unfold Answers
  rw [xor_countMask]
  by_cases hn : n = 1
  · simp [hn, popcount_eq_card, toNat_eq_iff_eq_toWord (card_setPositions_le a)]
  · simp [hn, popcount_not, toNat_eq_iff_eq_toWord (card_clearPositions_le a)]

/-- In contract a command answers, and its answer is the only word that the position-by-position
specification allows. -/
theorem commandAnswer_of_inContract {i : Instr} {n : Int} (h : inContract i n = true) (a : Word) :
    ∃ r, commandAnswer i a n = .ok r ∧ ∀ r', Answers i a n r' ↔ r' = r := by
  cases i
  case get =>
    refine ⟨_, if_pos (of_decide_eq_true h), fun r => ?_⟩
    rw [bitAt_eq_toWord]
    exact toNat_eq_iff_eq_toWord (by split <;> omega) r
  case set =>
    refine ⟨_, if_pos (of_decide_eq_true h), bits_iff_eq fun j hj => ?_⟩
    rw [BitVec.getLsbD_or, bitEntry_getLsbD]
    simp [hj, Bool.or_comm]
  case clear =>
    refine ⟨_, if_pos (of_decide_eq_true h), bits_iff_eq fun j hj => ?_⟩
    rw [BitVec.getLsbD_and, notBitEntry_getLsbD]
    simp [hj, Bool.and_comm]
  case flip =>
    refine ⟨_, if_pos (of_decide_eq_true h), bits_iff_eq fun j hj => ?_⟩
    rw [BitVec.getLsbD_xor, bitEntry_getLsbD]
    simp [hj, Bool.xor_comm]
  case countOnes =>
    refine ⟨_, rfl, fun r => ?_⟩
    rw [popcount_eq_card]
    exact toNat_eq_iff_eq_toWord (card_setPositions_le a) r
  case countZeros =>
    refine ⟨_, rfl, fun r => ?_⟩
    rw [sub_popcount]
    exact toNat_eq_iff_eq_toWord (card_clearPositions_le a) r
  case countBit => exact ⟨_, if_pos (of_decide_eq_true h), answers_countBit_iff a n⟩
  case rank1 =>
    have hn : 0 ≤ n ∧ n ≤ 63 := of_decide_eq_true h
    refine ⟨_, if_pos hn, fun r => ?_⟩
    rw [popcount_and_lowMask a (by omega)]
    exact toNat_eq_iff_eq_toWord ((Finset.card_filter_le _ _).trans (card_setPositions_le a)) r
  case rank0 =>
    have hn : 0 ≤ n ∧ n ≤ 63 := of_decide_eq_true h
    refine ⟨_, if_pos hn, fun r => ?_⟩
    rw [sub_popcount_and_lowMask a (by omega)]
    exact toNat_eq_iff_eq_toWord ((Finset.card_filter_le _ _).trans (card_clearPositions_le a)) r
  case leastSetBit => exact ⟨_, rfl, answers_leastSetBit_iff a n⟩
  case leastSetBitIndex => exact ⟨_, rfl, answers_leastSetBitIndex_iff a n⟩
  case select1 =>
    exact ⟨_, if_pos (of_decide_eq_true h), isKthOf_setPositions_iff a n.toNat⟩
  case select0 =>
    exact ⟨_, if_pos (of_decide_eq_true h), isKthOf_clearPositions_iff a n.toNat⟩
  case lutBit =>
    refine ⟨_, if_pos (of_decide_eq_true h), bits_iff_eq fun j hj => ?_⟩
    rw [bitEntry_getLsbD, decide_eq_true hj, Bool.true_and]
  case lutNotBit =>
    refine ⟨_, if_pos (of_decide_eq_true h), bits_iff_eq fun j hj => ?_⟩
    rw [notBitEntry_getLsbD, decide_eq_true hj, Bool.true_and]
  case lutLowMask =>
    have hn : 0 ≤ n ∧ n ≤ 64 := of_decide_eq_true h
    refine ⟨_, if_pos hn, bits_iff_eq fun j hj => ?_⟩
    rw [lowMaskEntry_getLsbD (by omega), decide_eq_true hj, Bool.true_and]
  case lutHighMask =>
    have hn : 0 ≤ n ∧ n ≤ 64 := of_decide_eq_true h
    refine ⟨_, if_pos hn, bits_iff_eq fun j hj => ?_⟩
    rw [highMaskEntry_getLsbD (by omega), decide_eq_true hj, Bool.true_and]

/-- Settles O34: the command's answer is the one word that meets the specification. -/
theorem commandsMeetSpecification : Obligations.CommandsMeetSpecification := by
  intro i s h
  obtain ⟨r, hok, hiff⟩ := commandAnswer_of_inContract h s.current.a
  refine ⟨r, ?_, (hiff r).2 rfl, fun r' => (hiff r').1⟩
  rw [exec_eq, hok, outcomeOf_ok, answer_eq_afterResponse]

/-! Integer results -/

/-- R157: out of contract a command has no answer, and violates its contract for its reason. -/
theorem commandAnswer_of_not_inContract {i : Instr} {n : Int} (h : inContract i n = false)
    (a : Word) : ∃ v, violationReason i = some v ∧ commandAnswer i a n = .error v := by
  cases i
  case countOnes | countZeros | leastSetBit | leastSetBitIndex => exact absurd h (by simp [inContract])
  all_goals exact ⟨_, rfl, if_neg (of_decide_eq_false h)⟩

/-- What a command gives is the answer that the specification allows. -/
theorem answers_of_gives {i : Instr} {a b r : Word} (h : Gives i a b r) : Answers i a (sint b) r := by
  rw [gives_iff] at h
  cases hc : inContract i (sint b)
  case false =>
    obtain ⟨v, -, herr⟩ := commandAnswer_of_not_inContract hc a
    simp [herr] at h
  case true =>
    obtain ⟨r', hok, hiff⟩ := commandAnswer_of_inContract hc a
    have e : r = r' := Except.ok.inj (h.symm.trans hok)
    exact (hiff r).2 e

/-- A k-th position is a position or the sentinel. -/
theorem le_or_allOnes_of_isKthOf {ps : Finset Nat} {k : Nat} {r : Word} (hps : ∀ p ∈ ps, p < 64)
    (h : IsKthOf ps k r) : r.toNat ≤ 64 ∨ r = allOnes := by
  rcases h with ⟨-, hr⟩ | ⟨hr, -⟩
  · exact .inr hr
  · exact .inl (hps _ hr).le

/-- The answers that R17 bounds: a number up to 64, or the sentinel where something can be not found. -/
theorem integer_answer_cases {i : Instr} {a r : Word} {n : Int}
    (hi : i ∈ [Instr.get, .countOnes, .countZeros, .countBit, .rank1, .rank0, .leastSetBitIndex,
      .select1, .select0]) (h : Answers i a n r) :
    r.toNat ≤ 64 ∨ (r = allOnes ∧ i ∈ [Instr.leastSetBitIndex, .select1, .select0]) := by
  cases i
  case set | clear | flip | leastSetBit | lutBit | lutNotBit | lutLowMask | lutHighMask =>
    exact absurd hi (by decide)
  case get => exact .inl (h.trans_le (by split <;> omega))
  case countOnes => exact .inl (h.trans_le (card_setPositions_le a))
  case countZeros => exact .inl (h.trans_le (card_clearPositions_le a))
  case countBit =>
    refine .inl (h.trans_le ?_)
    split
    · exact card_setPositions_le a
    · exact card_clearPositions_le a
  case rank1 =>
    exact .inl (h.trans_le ((Finset.card_filter_le _ _).trans (card_setPositions_le a)))
  case rank0 =>
    exact .inl (h.trans_le ((Finset.card_filter_le _ _).trans (card_clearPositions_le a)))
  case leastSetBitIndex =>
    rcases h with ⟨-, hr⟩ | ⟨hlt, -⟩
    · exact .inr ⟨hr, by decide⟩
    · exact .inl hlt.le
  case select1 =>
    refine (le_or_allOnes_of_isKthOf (fun p hp => ?_) h).imp_right fun hr => ⟨hr, by decide⟩
    exact ((mem_setPositions a p).1 hp).1
  case select0 =>
    refine (le_or_allOnes_of_isKthOf (fun p hp => ?_) h).imp_right fun hr => ⟨hr, by decide⟩
    exact ((mem_clearPositions a p).1 hp).1

theorem sint_of_toNat_le {r : Word} (h : r.toNat ≤ 64) : sint r = r.toNat :=
  BitVec.toInt_eq_toNat_of_lt (by omega)

theorem sint_allOnes : sint allOnes = -1 := by decide

/-- Settles O33: from the specification's bounds on every right answer. -/
theorem integerResultsInRange : Obligations.IntegerResultsInRange := by
  intro i hi a b r h
  rcases integer_answer_cases hi (answers_of_gives h) with hle | ⟨rfl, hsearch⟩
  · rw [sint_of_toNat_le hle]
    exact ⟨⟨by omega, by omega⟩, fun hneg => by omega⟩
  · rw [sint_allOnes]
    exact ⟨by decide, fun _ => hsearch⟩

/-! Responses -/

/-- A command just issued is answered from the operands of its request. -/
theorem exec_presented (i : Instr) (s : State) (q : Request) :
    exec i (presented s q) = outcomeOf (presented s q) (commandAnswer i q.a (sint q.b)) :=
  exec_eq i _

/-- R26: issuing a command outside reset appends the response it gets alone, or violates its contract
as it does alone. -/
theorem step_issue_responseAlone {s : State} {q : Request} {es : List Event}
    (hev : s.events = .issue q :: es) (hr : s.rst = false) :
    (∃ x, responseAlone q = some x ∧ step s = .next { presented s q with
      inFlight := s.inFlight ++ [{ request := q, response := x }] }) ∨
    (∃ v, responseAlone q = none ∧ step s = .fault (.contractViolation v q)) := by
  rw [step_issue_run hev hr]
  cases hd : decode q.cmd with
  | illegal w =>
    rw [runCommand_presented_illegal hd, responseAlone_illegal hd]
    exact .inl ⟨_, rfl, rfl⟩
  | legal i =>
    rw [runCommand_presented_legal hd, responseAlone_legal hd, exec_presented]
    cases commandAnswer i q.a (sint q.b) with
    | ok r => exact .inl ⟨_, rfl, rfl⟩
    | error v => exact .inr ⟨v, rfl, rfl⟩

/-- R and STATUS of the response to q, as a function of CMD, A and B. -/
theorem responseAlone_result (q : Request) :
    (responseAlone q).map (fun x => (x.r, x.status)) =
      match decode q.cmd with
      | .legal i => (commandAnswer i q.a (sint q.b)).toOption.map fun r => (r, .ok)
      | .illegal _ => some (0#64, .illegalCommand) := by
  cases hd : decode q.cmd with
  | illegal w => rw [responseAlone_illegal hd]; rfl
  | legal i => rw [responseAlone_legal hd, Option.map_map]; rfl

/-- Settles O32: the step appends the response a command gets alone, which CMD, A and B fix. -/
theorem responseDependsOnCommandOnly : Obligations.ResponseDependsOnCommandOnly := by
  refine ⟨fun s q es => step_issue_responseAlone, fun q q' hcmd ha hb => ?_⟩
  rw [responseAlone_result, responseAlone_result, hcmd, ha, hb]

end Sys2Proof.Proofs

/-! The state and its tables (spec/10_state.md): a step runs the command on the ports, and the constant
tables obey the laws of R38 and R150, through the commands that read them. -/
namespace Sys2Proof.Proofs

open Sys2Proof.Machine Sys2Proof.Safety

/-- Settles O4: outside reset the issued command runs, and a legal word runs as its command. -/
theorem stepRunsDecodedCommand : Obligations.StepRunsDecodedCommand := by
  intro s q es i hev hr hd
  rw [step_issue_run hev hr, runCommand_presented_legal hd]

/-! Commands with the integer argument n on port B -/

/-- With `arg n` on port B a command gives its answer for the integer n. -/
theorem gives_arg {i : Instr} {n : Nat} {a r : Word} (hn : n < 2 ^ 63)
    (h : commandAnswer i a n = .ok r) : Gives i a (arg n) r := by
  rwa [gives_iff, sint_arg hn]

theorem gives_lutLowMask {i : Nat} (hi : i ≤ 64) (a : Word) :
    Gives .lutLowMask a (arg i) (lowMaskEntry i) :=
  gives_arg (by omega) (if_pos (by omega))

theorem gives_lutHighMask {i : Nat} (hi : i ≤ 64) (a : Word) :
    Gives .lutHighMask a (arg i) (highMaskEntry i) :=
  gives_arg (by omega) (if_pos (by omega))

theorem gives_countOnes {w : Word} {n : Nat} (h : popcount w = n) (b : Word) :
    Gives .countOnes w b (arg n) := by
  rw [gives_iff, ← h]
  rfl

section BitIndex

variable {i : Nat} (hi : i ≤ 63) (a : Word)
include hi

theorem gives_lutBit : Gives .lutBit a (arg i) (bitEntry i) :=
  gives_arg (by omega) (if_pos (by omega))

theorem gives_lutNotBit : Gives .lutNotBit a (arg i) (notBitEntry i) :=
  gives_arg (by omega) (if_pos (by omega))

theorem gives_set : Gives .set a (arg i) (a ||| bitEntry i) :=
  gives_arg (by omega) (if_pos (by omega))

theorem gives_clear : Gives .clear a (arg i) (a &&& notBitEntry i) :=
  gives_arg (by omega) (if_pos (by omega))

theorem gives_flip : Gives .flip a (arg i) (a ^^^ bitEntry i) :=
  gives_arg (by omega) (if_pos (by omega))

theorem gives_rank1 : Gives .rank1 a (arg i) (arg (popcount (a &&& lowMaskEntry (i + 1)))) :=
  gives_arg (by omega) (if_pos (by omega))

end BitIndex

/-! The entries of the tables -/

/-- R39: the tables NOT_BIT and BIT are complements. -/
theorem notBitEntry_eq_not (i : Nat) : notBitEntry i = ~~~(bitEntry i) := rfl

/-- R39: the tables HIGH_MASK and LOW_MASK are complements. -/
theorem highMaskEntry_eq_not {i : Nat} (hi : i ≤ 64) : highMaskEntry i = ~~~(lowMaskEntry i) := by
  refine BitVec.eq_of_getLsbD_eq fun j hj => ?_
  rw [highMaskEntry_getLsbD hi, BitVec.getLsbD_not, lowMaskEntry_getLsbD hi]
  simp [hj, ← decide_not]

theorem setPositions_bitEntry {i : Nat} (hi : i ≤ 63) : setPositions (bitEntry i) = {i} := by
  ext j
  rw [mem_setPositions, bitEntry_getLsbD, Finset.mem_singleton]
  simp only [Bool.and_eq_true, decide_eq_true_eq]
  omega

theorem popcount_bitEntry {i : Nat} (hi : i ≤ 63) : popcount (bitEntry i) = 1 := by
  rw [popcount_eq_card, setPositions_bitEntry hi, Finset.card_singleton]

theorem popcount_lowMaskEntry {i : Nat} (hi : i ≤ 64) : popcount (lowMaskEntry i) = i := by
  rw [popcount_eq_card, setPositions_lowMask hi, Finset.card_range]

theorem popcount_not_eq_sub (w : Word) : popcount (~~~w) = 64 - popcount w := by
  have := sub_popcount w
  rw [popcount_not]
  omega

/-- Masking with BIT[j] leaves something exactly when position j is set. -/
theorem and_bitEntry_ne_zero_iff (w : Word) {j : Nat} (hj : j ≤ 63) :
    w &&& bitEntry j ≠ 0#64 ↔ w.getLsbD j = true := by
  have hand : w &&& bitEntry j = if w.getLsbD j then bitEntry j else 0#64 := BitVec.and_twoPow w j
  have hne : bitEntry j ≠ 0#64 := by
    intro h
    have hcount := popcount_bitEntry hj
    rw [h] at hcount
    exact absurd hcount (by decide)
  rw [hand]
  cases w.getLsbD j <;> simp [hne]

/-- R38: LOW_MASK[i] holds exactly the positions below i. -/
theorem lowMaskEntry_and_bitEntry_ne_zero_iff {i j : Nat} (hi : i ≤ 64) (hj : j ≤ 63) :
    lowMaskEntry i &&& bitEntry j ≠ 0#64 ↔ j < i := by
  rw [and_bitEntry_ne_zero_iff _ hj, lowMaskEntry_getLsbD hi]
  simp only [Bool.and_eq_true, decide_eq_true_eq]
  omega

/-- Settles O49: the commands give the entries of the tables, whose laws are the lemmas above. -/
theorem tableLaws : Obligations.TableLaws := by
  refine ⟨fun i hi => ?bits, fun i hi => ?masks, fun i hi w => ?rank⟩
  case bits =>
    have hnot : popcount (notBitEntry i) = 63 := by
      rw [notBitEntry_eq_not, popcount_not_eq_sub, popcount_bitEntry hi]
    exact ⟨bitEntry i, notBitEntry i, gives_lutBit hi _, gives_lutNotBit hi _, notBitEntry_eq_not i,
      gives_countOnes (popcount_bitEntry hi) _, gives_countOnes hnot _,
      fun w => ⟨gives_set hi w, gives_clear hi w, gives_flip hi w⟩⟩
  case masks =>
    have hhigh : popcount (highMaskEntry i) = 64 - i := by
      rw [highMaskEntry_eq_not hi, popcount_not_eq_sub, popcount_lowMaskEntry hi]
    exact ⟨lowMaskEntry i, highMaskEntry i, gives_lutLowMask hi _, gives_lutHighMask hi _,
      highMaskEntry_eq_not hi, gives_countOnes (popcount_lowMaskEntry hi) _, gives_countOnes hhigh _,
      fun j hj => ⟨bitEntry j, gives_lutBit hj _, lowMaskEntry_and_bitEntry_ne_zero_iff hi hj⟩⟩
  case rank =>
    exact ⟨lowMaskEntry (i + 1), _, gives_lutLowMask (by omega) _, gives_rank1 hi w,
      gives_countOnes rfl _⟩

end Sys2Proof.Proofs

/-! Memory and ordering (spec/20_memory.md R55; R171, R176): the engine's only memory is the FIFO of
accepted, unanswered commands, and a run moves responses through it in the order of the commands. -/
namespace Sys2Proof.Proofs

open Sys2Proof.Machine Sys2Proof.Safety

/-! The commands a schedule issues -/

theorem issuedBy_append (es fs : List Event) : issuedBy (es ++ fs) = issuedBy es ++ issuedBy fs :=
  List.filterMap_append

/-- The next k + 1 moves are the next one, then k of the schedule that it leaves. -/
theorem take_succ_eq_append (k : Nat) (es : List Event) :
    es.take (k + 1) = es.take 1 ++ es.tail.take k := by
  rw [Nat.add_comm, List.take_add, List.drop_one]

/-- A next move that returns a response, scheduled or after the schedule's end, issues nothing. -/
theorem issuedBy_take_one_of_deliver {es : List Event} (h : es.headD .deliver = .deliver) :
    issuedBy (es.take 1) = [] := by
  cases es with
  | nil => rfl
  | cons e es =>
    obtain rfl : e = .deliver := h
    rfl

/-! One step, and runs of steps -/

theorem run_refused {s : State} {r : Refusal} (k : Nat) (h : step s = .refused r) :
    core.run (k + 1) s = .refused r := by
  have h : core.step s = .refused r := h
  simp only [Host.Core.run, h]

/-- A run that answers after k + 1 steps answers its first step. -/
theorem run_succ_next {k : Nat} {s t : State} (h : core.run (k + 1) s = .next t) :
    ∃ u, step s = .next u ∧ core.run k u = .next t := by
  cases hs : step s with
  | next u => exact ⟨u, rfl, (run_succ k hs).symm.trans h⟩
  | fault f =>
    rw [run_fault k hs] at h
    cases h
  | refused r =>
    rw [run_refused k hs] at h
    cases h

/-- Every move takes itself off the schedule and nothing more. -/
theorem step_events {s t : State} (h : step s = .next t) : t.events = s.events.tail := by
  rcases step_next h with ⟨q, es, r, x, -, -, -, rfl⟩ | ⟨-, rfl⟩ | ⟨es, -, rfl⟩ | ⟨es, -, rfl⟩
  · rfl
  · exact deliverOldest_events _
  · rfl
  · rfl

/-- Outside reset, only the host's asserting it enters it. -/
theorem step_rst {s t : State} (h : step s = .next t) (hr : s.rst = false)
    (hev : ∀ es, s.events ≠ .assertReset :: es) : t.rst = false := by
  rcases step_next h with ⟨q, es, r, x, -, -, -, rfl⟩ | ⟨-, rfl⟩ | ⟨es, he, -⟩ | ⟨es, -, rfl⟩
  · exact hr
  · rwa [deliverOldest_rst]
  · exact absurd he (hev es)
  · rfl

/-- R176: outside reset, a return moves the oldest response owed, if there is one, to the ports. -/
theorem deliverOldest_conserves {s : State} (hr : s.rst = false) (ho : s.out = none) :
    (deliverOldest s).out.toList ++ (deliverOldest s).inFlight.map (·.response) =
      s.inFlight.map (·.response) := by
  cases hf : s.inFlight with
  | nil => rw [deliverOldest_idle hf, hf, ho]; rfl
  | cons e rest => rw [deliverOldest_cons hr hf]; rfl

/-- R55, R176: a step loses, changes and reorders no response: what it returns and then owes is what was
owed, followed by the response that the command it issues gets alone. -/
theorem step_conserves_responses {s t : State} (h : step s = .next t) (hr : s.rst = false)
    (hev : ∀ es, s.events ≠ .assertReset :: es) :
    (t.out.toList ++ t.inFlight.map (·.response)).map some =
      (s.inFlight.map (·.response)).map some ++ (issuedBy (s.events.take 1)).map responseAlone := by
  rcases step_next h with ⟨q, es, -, -, he, -⟩ | ⟨hd, rfl⟩ | ⟨es, he, -⟩ | ⟨es, he, rfl⟩
  case inl =>
    have hissued : issuedBy (s.events.take 1) = [q] := by rw [he]; rfl
    rcases step_issue_responseAlone he hr with ⟨x, hx, hs⟩ | ⟨v, -, hs⟩
    · cases h.symm.trans hs
      rw [hissued]
      simp [presented, hx]
    · cases h.symm.trans hs
  case inr.inl =>
    rw [deliverOldest_conserves (s := advance s) hr rfl, issuedBy_take_one_of_deliver hd, List.map_nil,
      List.append_nil, advance_inFlight]
  case inr.inr.inl => exact absurd he (hev es)
  case inr.inr.inr =>
    have hissued : issuedBy (s.events.take 1) = [] := by rw [he]; rfl
    rw [hissued]
    simp

/-- Settles O40: by induction on the number of steps, each of which conserves the responses. -/
theorem everyInterleavingGivesOwnResponses : Obligations.EveryInterleavingGivesOwnResponses := by
  intro k
  induction k with
  | zero =>
    rintro s t - - hrun
    cases hrun
    simp [returned, issuedBy]
  | succ k ih =>
    intro s t hr hev hrun
    obtain ⟨u, hstep, hrun⟩ := run_succ_next hrun
    have hhead : ∀ es, s.events ≠ .assertReset :: es := fun es he => hev _ (by simp [he]) rfl
    have htail : ∀ e ∈ u.events.take k, e ≠ .assertReset := by
      intro e he
      rw [step_events hstep] at he
      exact hev e (by rw [take_succ_eq_append]; exact List.mem_append_right _ he)
    have hrest := ih u t (step_rst hstep hr hhead) htail hrun
    rw [step_events hstep] at hrest
    calc (returned (k + 1) s ++ t.inFlight.map (·.response)).map some
        = u.out.toList.map some ++ (returned k u ++ t.inFlight.map (·.response)).map some := by
          rw [returned_succ k hstep, List.append_assoc, List.map_append]
      _ = (u.out.toList ++ u.inFlight.map (·.response)).map some ++
            (issuedBy (s.events.tail.take k)).map responseAlone := by
          rw [hrest, List.map_append, List.append_assoc]
      _ = (s.inFlight.map (·.response)).map some ++
            (issuedBy (s.events.take (k + 1))).map responseAlone := by
          rw [step_conserves_responses hstep hr hhead, take_succ_eq_append k, issuedBy_append,
            List.map_append, List.append_assoc]

end Sys2Proof.Proofs

/-! Encoding (spec/30_encoding.md): a command word is RSV above OP, its own word and no other decodes to a
command, an illegal word gets the illegal-command response, an ignored operand changes no answer, and what
the engine returns is the oldest response it owes. -/
namespace Sys2Proof.Proofs

open Sys2Proof.Machine Sys2Proof.Safety

/-! The fields of a command word -/

/-- R61: RSV above OP is the whole word. -/
theorem rsvField_append_opField (cmd : CmdWord) : rsvField cmd ++ opField cmd = cmd :=
  BitVec.extractLsb'_append_extractLsb'

@[simp] theorem rsvField_encode (i : Instr) : rsvField (encode i) = 0#27 :=
  BitVec.extractLsb'_append_eq_left

@[simp] theorem opField_encode (i : Instr) : opField (encode i) = opcode i :=
  BitVec.extractLsb'_append_eq_right

/-- R73: a command's word is the one with RSV = 0 and its opcode. -/
theorem eq_encode_iff (cmd : CmdWord) (i : Instr) :
    cmd = encode i ↔ rsvField cmd = 0#27 ∧ opField cmd = opcode i := by
  constructor
  · rintro rfl
    exact ⟨rsvField_encode i, opField_encode i⟩
  · rintro ⟨hrsv, hop⟩
    rw [← rsvField_append_opField cmd, hrsv, hop]
    rfl

theorem rsvField_toNat (cmd : CmdWord) : (rsvField cmd).toNat = cmd.toNat / 32 := by
  rw [rsvField, BitVec.extractLsb'_toNat, Nat.shiftRight_eq_div_pow]
  omega

theorem opField_toNat (cmd : CmdWord) : (opField cmd).toNat = cmd.toNat % 32 :=
  BitVec.extractLsb'_toNat 0 5 cmd

theorem rsvField_eq_zero_iff (cmd : CmdWord) : rsvField cmd = 0#27 ↔ cmd.toNat / 32 = 0 := by
  rw [← rsvField_toNat, ← BitVec.toNat_inj]
  rfl

/-! The opcode map -/

/-- The 17 opcodes of R64. -/
def assignedOpcodes : List Nat :=
  [0x01, 0x02, 0x03, 0x04, 0x05, 0x06, 0x07, 0x08, 0x09, 0x0A, 0x0B, 0x0C, 0x0D, 0x10, 0x11, 0x12, 0x13]

/-- R64: no two commands share an opcode, and each opcode of the map is its command's. -/
theorem decodeOp_eq_some_iff (op : BitVec 5) (i : Instr) : decodeOp op = some i ↔ op = opcode i := by
  revert op
  cases i <;> decide

theorem decodeOp_isSome_iff (op : BitVec 5) :
    (decodeOp op).isSome = true ↔ op.toNat ∈ assignedOpcodes := by
  revert op
  decide

/-! Decoding -/

/-- Settles O1: the decoder's rows for the six words. -/
theorem commandWordsDecode : Obligations.CommandWordsDecode :=
  ⟨decode_word_get, decode_word_countBit, decode_word_rank0, decode_word_leastSetBitIndex,
    decode_word_select1, decode_word_lutHighMask⟩

theorem decode_legal_iff (cmd : CmdWord) (i : Instr) :
    decode cmd = .legal i ↔ rsvField cmd = 0#27 ∧ decodeOp (opField cmd) = some i := by
  unfold decode
  split
  case isTrue hrsv => exact iff_of_false (by simp) fun h => hrsv h.1
  case isFalse hrsv =>
    rw [not_not] at hrsv
    cases decodeOp (opField cmd) <;> simp [hrsv]

/-- Settles O2: both sides say that RSV is 0 and that OP is the opcode of i. -/
theorem decodeIffEncode : Obligations.DecodeIffEncode := by
  intro cmd i
  rw [decode_legal_iff, decodeOp_eq_some_iff, eq_encode_iff]

theorem exists_decode_legal_iff (cmd : CmdWord) :
    (∃ i, decode cmd = .legal i) ↔ cmd.toNat / 32 = 0 ∧ cmd.toNat % 32 ∈ assignedOpcodes := by
  simp only [decode_legal_iff]
  rw [exists_and_left, ← Option.isSome_iff_exists, decodeOp_isSome_iff, rsvField_eq_zero_iff,
    opField_toNat]

/-- R63: every word is legal or illegal, and none is both. -/
theorem exists_decode_illegal_iff (cmd : CmdWord) :
    (∃ e, decode cmd = .illegal e) ↔ ¬∃ i, decode cmd = .legal i := by
  cases decode cmd <;> simp

/-! Legality as a number -/

theorem reservedBitsZero_iff (cmd : CmdWord) : reservedBitsZero cmd = true ↔ cmd.toNat / 32 = 0 := by
  rw [reservedBitsZero, decide_eq_true_iff]
  omega

/-- R65: the opcodes that are not reserved are the 17 assigned ones. -/
theorem opcodeAssigned_iff (cmd : CmdWord) :
    opcodeAssigned cmd = true ↔ cmd.toNat % 32 ∈ assignedOpcodes := by
  unfold opcodeAssigned
  rw [← opField_toNat]
  generalize opField cmd = op
  revert op
  decide

theorem wfCommandWord_iff (cmd : CmdWord) : wfCommandWord cmd = true ↔ ∃ i, decode cmd = .legal i := by
  rw [wfCommandWord, Bool.and_eq_true, reservedBitsZero_iff, opcodeAssigned_iff, exists_decode_legal_iff]

theorem exists_decode_illegal_iff_not_wf (cmd : CmdWord) :
    (∃ e, decode cmd = .illegal e) ↔ wfCommandWord cmd = false := by
  rw [exists_decode_illegal_iff, ← wfCommandWord_iff, Bool.not_eq_true]

/-- Settles O3: a word is legal by the values of its two fields, and rejected exactly when it is not. -/
theorem decodeRejectsExactlyIllegal : Obligations.DecodeRejectsExactlyIllegal :=
  fun cmd => ⟨exists_decode_legal_iff cmd, exists_decode_illegal_iff_not_wf cmd⟩

/-! Illegal commands -/

/-- R155: outside reset an ill-formed word gets the illegal-command response and does nothing else. -/
theorem step_issue_not_wf {s : State} {q : Request} {es : List Event} (hev : s.events = .issue q :: es)
    (hr : s.rst = false) (hwf : wfCommandWord q.cmd = false) :
    step s = .next (afterResponse (presented s q) 0#64 .illegalCommand) := by
  obtain ⟨e, he⟩ := (exists_decode_illegal_iff_not_wf q.cmd).2 hwf
  rw [step_issue_run hev hr, runCommand_presented_illegal he, answer_eq_afterResponse]

/-- R65: the listed values are the reserved ones. -/
theorem opcodeAssigned_of_reserved {cmd : CmdWord}
    (h : cmd.toNat % 32 ∈ [0x00, 0x0E, 0x0F, 0x14, 0x15, 0x16, 0x17, 0x18, 0x19, 0x1A, 0x1B, 0x1C, 0x1D,
      0x1E, 0x1F]) : opcodeAssigned cmd = false := by
  unfold opcodeAssigned
  generalize cmd.toNat % 32 = op at h
  revert op
  decide

/-- R66: a bit from 5 up is a reserved bit. -/
theorem reservedBitsZero_of_getLsbD {cmd : CmdWord} {n : Nat} (hn : 5 ≤ n)
    (h : cmd.getLsbD n = true) : reservedBitsZero cmd = false := by
  obtain ⟨k, rfl⟩ := Nat.exists_eq_add_of_le hn
  refine decide_eq_false fun hlt => ?_
  have hclear := (BitVec.toNat_lt_iff_getLsbD_eq_false 5 (by decide)).1 hlt k
  rw [hclear] at h
  cases h

/-- Settles O6: a word with a reserved opcode is ill formed. -/
theorem reservedOpcodesAreIllegal : Obligations.ReservedOpcodesAreIllegal := by
  intro s q es hev hr hop
  refine step_issue_not_wf hev hr ?_
  rw [wfCommandWord, opcodeAssigned_of_reserved hop, Bool.and_false]

/-- Settles O7: a word with a reserved bit set is ill formed. -/
theorem reservedBitsAreIllegal : Obligations.ReservedBitsAreIllegal := by
  intro s q es n hev hr hn hbit
  refine step_issue_not_wf hev hr ?_
  rw [wfCommandWord, reservedBitsZero_of_getLsbD hn hbit, Bool.false_and]

/-! Ignored operands -/

/-- R67: the four commands that ignore B answer whatever B is, and from A alone. -/
theorem commandAnswer_ignores_b {i : Instr}
    (hi : i ∈ [Instr.countOnes, .countZeros, .leastSetBit, .leastSetBitIndex]) (a : Word) :
    ∃ r, ∀ n, commandAnswer i a n = .ok r := by
  simp only [List.mem_cons, List.not_mem_nil, or_false] at hi
  rcases hi with rfl | rfl | rfl | rfl <;> exact ⟨_, fun _ => rfl⟩

/-- R67: the four LUT commands ignore A. -/
theorem commandAnswer_ignores_a {i : Instr}
    (hi : i ∈ [Instr.lutBit, .lutNotBit, .lutLowMask, .lutHighMask]) (a a' : Word) (n : Int) :
    commandAnswer i a n = commandAnswer i a' n := by
  simp only [List.mem_cons, List.not_mem_nil, or_false] at hi
  rcases hi with rfl | rfl | rfl | rfl <;> rfl

/-- Settles O31: a command issued alone gets its answer, which an ignored operand does not enter. -/
theorem ignoredOperandsDoNotMatter : Obligations.IgnoredOperandsDoNotMatter := by
  refine ⟨fun i hi h a b b' => ?_, fun i hi h a a' b => ?_⟩
  · obtain ⟨r, hr⟩ := commandAnswer_ignores_b hi a
    rw [responseAlone_encode, responseAlone_encode, hr, hr]
    exact ⟨_, rfl, rfl⟩
  · rw [responseAlone_encode, responseAlone_encode, commandAnswer_ignores_a hi a a']

/-! Returned responses -/

/-- A move of the engine is a step that answers, or any answer to a command (R156). -/
theorem engineStep_cases {s t : State} (h : EngineStep s t) :
    step s = .next t ∨ ∃ r q, t = answer r .ok (present q (advance s)) := by
  unfold EngineStep at h
  split at h
  case h_1 u hs => exact .inl (h ▸ hs)
  case h_2 v q hs =>
    obtain ⟨r, hr⟩ := h
    exact .inr ⟨r, q, hr⟩
  case h_3 => exact h.elim

/-- R60, R176: of the engine's moves only a return puts a response on the ports. -/
theorem eq_deliverOldest_of_out {s t : State} {x : Response} (h : EngineStep s t) (hx : t.out = some x) :
    t = deliverOldest (advance s) := by
  rcases engineStep_cases h with hs | ⟨r, q, rfl⟩
  · rcases step_next hs with ⟨q, es, r, st, -, -, -, rfl⟩ | ⟨-, rfl⟩ | ⟨es, -, rfl⟩ | ⟨es, -, rfl⟩
    · cases hx
    · rfl
    · cases hx
    · cases hx
  · cases hx

/-- R176: what a return puts on the ports was the oldest response owed, which leaves the FIFO. -/
theorem deliverOldest_out {s : State} {x : Response} (ho : s.out = none)
    (hx : (deliverOldest s).out = some x) :
    ∃ e rest, s.inFlight = e :: rest ∧ (deliverOldest s).inFlight = rest ∧ x = e.response := by
  cases hr : s.rst with
  | true =>
    rw [deliverOldest_inReset hr, ho] at hx
    cases hx
  | false =>
    cases hf : s.inFlight with
    | nil =>
      rw [deliverOldest_idle hf, ho] at hx
      cases hx
    | cons e rest =>
      rw [deliverOldest_cons hr hf] at hx ⊢
      cases hx
      exact ⟨e, rest, rfl, rfl, rfl⟩

/-- Settles O38: a returned response is the oldest one owed, which the invariant allows. -/
theorem returnedResponseIsAllowed : Obligations.ReturnedResponseIsAllowed := by
  rintro s t x ⟨-, hallowed⟩ hstep hx
  obtain rfl := eq_deliverOldest_of_out hstep hx
  obtain ⟨e, rest, hf, hrest, rfl⟩ := deliverOldest_out (advance_out s) hx
  rw [advance_inFlight] at hf
  exact ⟨e, rest, hf, hrest, rfl, hallowed e (by simp [hf])⟩

end Sys2Proof.Proofs

/-! Bit access (spec/40_bit_access.md): GET, SET, CLEAR and FLIP each answer their formula or violate the
index contract, a GET of the changed word reads back what was changed and nothing else, and the laws of
R87 and R88 follow from that, since a word is pinned by its GETs. -/
namespace Sys2Proof.Proofs

open Sys2Proof.Machine Sys2Proof.Safety

/-! Commands with an index in [0, 63] -/

/-- R81: a command that answers r behind the index check answers it in contract, with the frame of a
response, and faults for the reason of the check otherwise. -/
theorem exec_of_index_check {i : Instr} {s : State} {v : Violation} {r : Word}
    (h : commandAnswer i s.current.a (sint s.current.b) =
      if 0 ≤ sint s.current.b ∧ sint s.current.b ≤ 63 then .ok r else .error v) :
    (0 ≤ sint s.current.b ∧ sint s.current.b ≤ 63 → exec i s = .next (afterResponse s r .ok)) ∧
    (sint s.current.b < 0 ∨ 63 < sint s.current.b →
      exec i s = .fault (.contractViolation v s.current)) := by
  rw [exec_eq, h]
  constructor
  · intro hin
    rw [if_pos hin, outcomeOf_ok, answer_eq_afterResponse]
  · intro hout
    rw [if_neg (by omega), outcomeOf_error]

/-- R82: GET reads the word 1 or 0. -/
theorem bitAt_eq_ite (w : Word) (i : Nat) : bitAt w i = if w.getLsbD i then 1#64 else 0#64 := by
  unfold bitAt
  cases w.getLsbD i <;> rfl

/-- Settles O11: the answer of GET is its bit as a word. -/
theorem getReadsBit : Obligations.GetReadsBit := by
  refine ⟨rfl, fun s => ?_⟩
  rw [← bitAt_eq_ite]
  exact exec_of_index_check rfl

/-- Settles O12: the answer of SET is its formula behind the index check. -/
theorem setForcesBitToOne : Obligations.SetForcesBitToOne := ⟨rfl, fun _ => exec_of_index_check rfl⟩

/-- Settles O13: the answer of CLEAR is its formula behind the index check. -/
theorem clearForcesBitToZero : Obligations.ClearForcesBitToZero :=
  ⟨rfl, fun _ => exec_of_index_check rfl⟩

/-- Settles O14: the answer of FLIP is its formula behind the index check. -/
theorem flipInvertsBit : Obligations.FlipInvertsBit := ⟨rfl, fun _ => exec_of_index_check rfl⟩

/-! What GET reads -/

theorem gives_get {a r : Word} {i : Nat} (hi : i ≤ 63) (h : bitAt a i = r) : Gives .get a (arg i) r :=
  gives_arg (by omega) (h ▸ if_pos (by omega))

theorem bitAt_eq_zero_or_one (w : Word) (i : Nat) : bitAt w i = 0#64 ∨ bitAt w i = 1#64 := by
  rw [bitAt_eq_ite]
  cases w.getLsbD i
  · exact .inl rfl
  · exact .inr rfl

theorem bitAt_eq_zero_iff (w : Word) (i : Nat) : bitAt w i = 0#64 ↔ w.getLsbD i = false := by
  rw [bitAt_eq_ite]
  cases w.getLsbD i <;> decide

theorem bitAt_eq_bitAt_iff {x y : Word} {j : Nat} : bitAt x j = bitAt y j ↔ x.getLsbD j = y.getLsbD j := by
  rw [bitAt_eq_ite, bitAt_eq_ite]
  cases x.getLsbD j <;> cases y.getLsbD j <;> decide

/-- A word is pinned by its GETs. -/
theorem eq_of_bitAt_eq {x y : Word} (h : ∀ j ≤ 63, bitAt x j = bitAt y j) : x = y :=
  BitVec.eq_of_getLsbD_eq fun j hj => bitAt_eq_bitAt_iff.1 (h j (by omega))

section GetAfter

variable (w : Word) (i : Nat) {j : Nat} (hj : j ≤ 63)
include hj

/-- R83, R87: GET after SET. -/
theorem bitAt_or_bitEntry : bitAt (w ||| bitEntry i) j = if j = i then 1#64 else bitAt w j := by
  have hj64 : j < 64 := by omega
  rw [bitAt_eq_ite, bitAt_eq_ite, BitVec.getLsbD_or, bitEntry_getLsbD]
  by_cases h : j = i
  · subst h
    simp [hj64]
  · simp [h]

/-- R84, R87: GET after CLEAR. -/
theorem bitAt_and_notBitEntry :
    bitAt (w &&& notBitEntry i) j = if j = i then 0#64 else bitAt w j := by
  have hj64 : j < 64 := by omega
  rw [bitAt_eq_ite, bitAt_eq_ite, BitVec.getLsbD_and, notBitEntry_getLsbD]
  by_cases h : j = i <;> simp [h, hj64]

/-- R85, R87: GET after FLIP. -/
theorem bitAt_xor_bitEntry :
    bitAt (w ^^^ bitEntry i) j = if j = i then 1#64 - bitAt w j else bitAt w j := by
  have hj64 : j < 64 := by omega
  rw [bitAt_eq_ite, bitAt_eq_ite, BitVec.getLsbD_xor, bitEntry_getLsbD]
  by_cases h : j = i
  · subst h
    cases w.getLsbD j <;> simp [hj64]
  · simp [h]

end GetAfter

/-- Settles O41: each law is what GET reads after SET, CLEAR or FLIP. -/
theorem bitAccessLaws : Obligations.BitAccessLaws := by
  intro w i hi
  refine ⟨⟨_, gives_set hi w, gives_get hi ?set⟩, ⟨_, gives_clear hi w, gives_get hi ?clear⟩,
    _, _, gives_flip hi w, gives_get hi rfl, gives_get hi ?flip,
    fun j hj hne => ⟨_, gives_get hj rfl, gives_get hj ?other⟩⟩
  case set => rw [bitAt_or_bitEntry w i hi, if_pos rfl]
  case clear => rw [bitAt_and_notBitEntry w i hi, if_pos rfl]
  case flip => rw [bitAt_xor_bitEntry w i hi, if_pos rfl]
  case other => rw [bitAt_xor_bitEntry w i hj, if_neg hne]

/-! The derived laws -/

section DerivedLaws

variable {w : Word} {i : Nat}

/-- R88: SET is the identity exactly on a set bit. -/
theorem or_bitEntry_eq_self_iff (hi : i ≤ 63) : w ||| bitEntry i = w ↔ bitAt w i = 1#64 := by
  constructor
  · intro h
    rw [← h, bitAt_or_bitEntry w i hi, if_pos rfl]
  · intro h
    refine eq_of_bitAt_eq fun j hj => ?_
    rw [bitAt_or_bitEntry w i hj, ← h]
    exact ite_eq_right_iff.2 fun e => e ▸ rfl

/-- R88: CLEAR is the identity exactly on a clear bit. -/
theorem and_notBitEntry_eq_self_iff (hi : i ≤ 63) :
    w &&& notBitEntry i = w ↔ bitAt w i = 0#64 := by
  constructor
  · intro h
    rw [← h, bitAt_and_notBitEntry w i hi, if_pos rfl]
  · intro h
    refine eq_of_bitAt_eq fun j hj => ?_
    rw [bitAt_and_notBitEntry w i hj, ← h]
    exact ite_eq_right_iff.2 fun e => e ▸ rfl

/-- R88: on a clear bit FLIP is SET. -/
theorem xor_bitEntry_eq_or (h : bitAt w i = 0#64) : w ^^^ bitEntry i = w ||| bitEntry i := by
  refine eq_of_bitAt_eq fun j hj => ?_
  rw [bitAt_xor_bitEntry w i hj, bitAt_or_bitEntry w i hj]
  by_cases e : j = i <;> simp [e, h]

/-- R88: on a set bit FLIP is CLEAR. -/
theorem xor_bitEntry_eq_and (h : bitAt w i = 1#64) : w ^^^ bitEntry i = w &&& notBitEntry i := by
  refine eq_of_bitAt_eq fun j hj => ?_
  rw [bitAt_xor_bitEntry w i hj, bitAt_and_notBitEntry w i hj]
  by_cases e : j = i <;> simp [e, h]

theorem setPositions_or_bitEntry (hi : i ≤ 63) :
    setPositions (w ||| bitEntry i) = insert i (setPositions w) := by
  ext j
  rw [mem_setPositions, Finset.mem_insert, mem_setPositions, BitVec.getLsbD_or, bitEntry_getLsbD]
  by_cases h : j = i
  · subst h
    have hj : j < 64 := by omega
    simp [hj]
  · simp [h]

/-- R88: SET on a clear bit adds one to the count. -/
theorem popcount_or_bitEntry (hi : i ≤ 63) (h : bitAt w i = 0#64) :
    popcount (w ||| bitEntry i) = popcount w + 1 := by
  have hnot : i ∉ setPositions w := by simp [(bitAt_eq_zero_iff w i).1 h]
  rw [popcount_eq_card, popcount_eq_card, setPositions_or_bitEntry hi, Finset.card_insert_of_notMem hnot]

theorem arg_succ (n : Nat) : arg (n + 1) = arg n + 1#64 := by
  unfold arg toWord
  rw [Nat.cast_succ, BitVec.ofInt_add]
  rfl

/-- R88: the count of SET, as a word. -/
theorem arg_popcount_or_bitEntry (hi : i ≤ 63) :
    arg (popcount (w ||| bitEntry i)) = arg (popcount w) + 1#64 - bitAt w i := by
  rcases bitAt_eq_zero_or_one w i with h | h
  · rw [popcount_or_bitEntry hi h, h, BitVec.sub_zero]
    exact arg_succ _
  · rw [(or_bitEntry_eq_self_iff hi).2 h, h, BitVec.add_sub_cancel]

end DerivedLaws

/-- Settles O42: the words the commands give obey the laws above. -/
theorem bitAccessDerivedLaws : Obligations.BitAccessDerivedLaws := by
  intro w i hi
  refine ⟨_, _, _, _, _, gives_set hi w, gives_clear hi w, gives_flip hi w, gives_get hi rfl,
    gives_countOnes rfl _,
    fun j hj hne => ⟨_, gives_get hj rfl, gives_get hj ?set, gives_get hj ?clear⟩,
    or_bitEntry_eq_self_iff hi, and_notBitEntry_eq_self_iff hi, xor_bitEntry_eq_or,
    fun hg => xor_bitEntry_eq_and ((bitAt_eq_zero_or_one w i).resolve_left hg), ?count⟩
  case set => rw [bitAt_or_bitEntry w i hj, if_neg hne]
  case clear => rw [bitAt_and_notBitEntry w i hj, if_neg hne]
  case count =>
    rw [← arg_popcount_or_bitEntry hi]
    exact gives_countOnes rfl _

end Sys2Proof.Proofs

/-! Population count (spec/41_popcount.md): COUNT_ONES, COUNT_ZEROS and COUNT_BIT answer sizes of sets of
positions, and the counting circuit of R93 computes the same number: its folds count every byte of the word
on its own, and its multiplication adds up the bytes. -/
namespace Sys2Proof.Proofs

open Sys2Proof.Machine Sys2Proof.Safety

/-! The commands -/

theorem exec_of_ok {i : Instr} {s : State} {r : Word}
    (h : commandAnswer i s.current.a (sint s.current.b) = .ok r) :
    exec i s = .next (afterResponse s r .ok) := by
  rw [exec_eq, h, outcomeOf_ok, answer_eq_afterResponse]

theorem exec_of_error {i : Instr} {s : State} {v : Violation}
    (h : commandAnswer i s.current.a (sint s.current.b) = .error v) :
    exec i s = .fault (.contractViolation v s.current) := by
  rw [exec_eq, h, outcomeOf_error]

/-- Settles O15: the count is the size of the set of set positions. -/
theorem countOnesCountsSetPositions : Obligations.CountOnesCountsSetPositions := by
  refine ⟨rfl, fun s => ?_⟩
  rw [← popcount_eq_card]
  exact exec_of_ok rfl

/-- Settles O16: the positions that are not set are the set positions of the complement. -/
theorem countZerosCountsClearPositions : Obligations.CountZerosCountsClearPositions := by
  refine ⟨rfl, fun s => ⟨?difference, ?complement⟩⟩
  case difference =>
    rw [← popcount_eq_card]
    exact exec_of_ok rfl
  case complement =>
    rw [setPositions_not, ← sub_popcount]
    exact exec_of_ok rfl

/-- R96: for a bit value, COUNT_BIT answers the count under the mask of that value. -/
theorem commandAnswer_countBit {a : Word} {n : Int} {b : Bool} (hn : n = if b then 1 else 0) :
    commandAnswer .countBit a n = .ok (toWord (popcount (a ^^^ countMask b))) := by
  subst hn
  cases b <;> rfl

/-- Settles O17: the two bit values select the two masks, and no other value is in contract. -/
theorem countBitCountsOccurrences : Obligations.CountBitCountsOccurrences := by
  refine ⟨rfl, fun s => ⟨fun hone => ?_, fun hzero => ?_, fun hother => ?_⟩⟩
  · rw [← popcount_eq_card]
    exact exec_of_ok (commandAnswer_countBit (b := true) hone)
  · rw [← popcount_eq_card]
    exact exec_of_ok (commandAnswer_countBit (b := false) hzero)
  · exact exec_of_error (if_neg (not_or.2 hother))

/-! The laws of the counts -/

theorem gives_countZeros {w : Word} {n : Nat} (h : popcount (~~~w) = n) (b : Word) :
    Gives .countZeros w b (arg n) := by
  rw [gives_iff, ← h, popcount_not]
  exact congrArg (Except.ok ∘ toWord) (sub_popcount w)

theorem gives_countBit_one (w : Word) : Gives .countBit w 1#64 (arg (popcount w)) := by
  rw [gives_iff, commandAnswer_countBit (b := true) (by decide), xor_countMask, if_pos rfl]
  rfl

theorem gives_countBit_zero (w : Word) : Gives .countBit w 0#64 (arg (popcount (~~~w))) := by
  rw [gives_iff, commandAnswer_countBit (b := false) (by decide), xor_countMask, if_neg (by decide)]
  rfl

theorem toNat_arg_popcount (w : Word) : (arg (popcount w)).toNat = popcount w :=
  toNat_arg (by have := popcount_le w; omega)

/-- Settles O43: the five counts are those of the word and of its complement, which add to 64. -/
theorem countLaws : Obligations.CountLaws := by
  intro w
  refine ⟨_, _, gives_countOnes rfl _, gives_countZeros rfl _, ?sum, gives_countOnes rfl _,
    gives_countBit_one w, gives_countBit_zero w⟩
  have hle := popcount_le w
  rw [toNat_arg_popcount, toNat_arg_popcount, popcount_not_eq_sub]
  omega

/-! The folds of the counting circuit, on one byte -/

/-- One fold of R93 on a byte: the counters at the places of the mask m and those s places above them
are added. -/
def foldByte (m : BitVec 8) (s : Nat) (y : BitVec 8) : BitVec 8 := (y &&& m) + ((y >>> s) &&& m)

/-- `s2` of R93 on one byte: two four-bit counters. -/
def nibblesOfByte (y : BitVec 8) : BitVec 8 := foldByte 0x33#8 2 (foldByte 0x55#8 1 y)

/-- `s3` of R93 on one byte: its counter. -/
def countOfByte (y : BitVec 8) : BitVec 8 := (nibblesOfByte y + nibblesOfByte y >>> 4) &&& 0x0F#8

/-- The set positions of a byte. -/
def bytePositions (y : BitVec 8) : Finset Nat := (Finset.range 8).filter fun i => y.getLsbD i = true

/-- R93 on one byte: the three folds count its set positions. -/
theorem countOfByte_toNat : ∀ y : BitVec 8, (countOfByte y).toNat = (bytePositions y).card := by
  decide

/-- A four-bit counter holds at most 4, so its top place is clear. -/
theorem nibblesOfByte_getLsbD : ∀ y : BitVec 8,
    (nibblesOfByte y).getLsbD 3 = false ∧ (nibblesOfByte y).getLsbD 7 = false := by
  decide

/-! The folds of the counting circuit, on a word -/

theorem byteLane_maskM1 : ∀ j < 8, byteLane maskM1 j = 0x55#8 := by decide

theorem byteLane_maskM2 : ∀ j < 8, byteLane maskM2 j = 0x33#8 := by decide

theorem byteLane_maskM4 : ∀ j < 8, byteLane maskM4 j = 0x0F#8 := by decide

/-- A fold whose mask keeps every lane's counters apart acts lane by lane. -/
theorem byteLane_fold {v M : Word} {m : BitVec 8} {s : Nat} (hM : ∀ j < 8, byteLane M j = m)
    (hs : ∀ i < 8, 8 - s ≤ i → m.getLsbD i = false) (hm : m.toNat < 128) {j : Nat} (hj : j < 8) :
    byteLane ((v &&& M) + ((v >>> s) &&& M)) j = foldByte m s (byteLane v j) := by
  have hle : ∀ u : Word, ∀ j < 8, (byteLane (u &&& M) j).toNat ≤ m.toNat := fun u j hj => by
    rw [byteLane_and, hM j hj, BitVec.toNat_and]
    exact Nat.and_le_right
  have hcarry : ∀ j < 8, (byteLane (v &&& M) j).toNat + (byteLane ((v >>> s) &&& M) j).toNat < 256 :=
    fun j hj => by
      have h1 := hle v j hj
      have h2 := hle (v >>> s) j hj
      omega
  rw [byteLane_add hcarry hj, byteLane_and, byteLane_and, hM j hj, byteLane_shiftRight_and v hs]
  rfl

theorem byteLane_swarNibbles (w : Word) {j : Nat} (hj : j < 8) :
    byteLane (swarNibbles w) j = nibblesOfByte (byteLane w j) := by
  have hpairs : byteLane (swarPairs w) j = foldByte 0x55#8 1 (byteLane w j) :=
    byteLane_fold byteLane_maskM1 (by decide) (by decide) hj
  rw [nibblesOfByte, ← hpairs]
  exact byteLane_fold byteLane_maskM2 (by decide) (by decide) hj

theorem toNat_byteLane_lt_of_top_clear {v : Word} {j : Nat} (h : v.getLsbD (8 * j + 7) = false) :
    (byteLane v j).toNat < 128 := by
  refine BitVec.toNat_lt_of_msb_false ?_
  rw [BitVec.msb_eq_getLsbD_last, byteLane_getLsbD, h, Bool.and_false]

/-- The top place of each four-bit counter is clear. -/
theorem swarNibbles_getLsbD_top (w : Word) (j : Nat) :
    (swarNibbles w).getLsbD (8 * j + 3) = false ∧ (swarNibbles w).getLsbD (8 * j + 7) = false := by
  rcases Nat.lt_or_ge j 8 with hj | hj
  · have h := nibblesOfByte_getLsbD (byteLane w j)
    rw [← byteLane_swarNibbles w hj, byteLane_getLsbD, byteLane_getLsbD] at h
    exact h
  · exact ⟨BitVec.getLsbD_of_ge _ _ (by omega), BitVec.getLsbD_of_ge _ _ (by omega)⟩

/-- The low four bits of a sum come from the low four bits of its terms. -/
theorem add_and_0F_congr (x : BitVec 8) {y z : BitVec 8} (h : y &&& 0x0F#8 = z &&& 0x0F#8) :
    (x + y) &&& 0x0F#8 = (x + z) &&& 0x0F#8 := by
  have hmod : ∀ u : BitVec 8, (u &&& 0x0F#8).toNat = u.toNat % 16 := fun u =>
    Nat.and_two_pow_sub_one_eq_mod u.toNat 4
  rw [← BitVec.toNat_inj, hmod, hmod] at h ⊢
  rw [BitVec.toNat_add, BitVec.toNat_add]
  omega

/-- R93, R94: the folds count each byte lane on its own. The last fold adds before it masks; the top
places of the four-bit counters are clear, so no lane carries into the next. -/
theorem byteLane_byteCounts (w : Word) {j : Nat} (hj : j < 8) :
    byteLane (byteCounts w) j = countOfByte (byteLane w j) := by
  have hcarry : ∀ j < 8, (byteLane (swarNibbles w) j).toNat +
      (byteLane (swarNibbles w >>> 4) j).toNat < 256 := fun j _ => by
    obtain ⟨-, htop⟩ := swarNibbles_getLsbD_top w j
    obtain ⟨hnext, -⟩ := swarNibbles_getLsbD_top w (j + 1)
    have h1 := toNat_byteLane_lt_of_top_clear htop
    have h2 : (byteLane (swarNibbles w >>> 4) j).toNat < 128 := by
      refine toNat_byteLane_lt_of_top_clear ?_
      rw [BitVec.getLsbD_ushiftRight, ← hnext]
      congr 1
      omega
    omega
  calc byteLane (byteCounts w) j
      = byteLane (swarNibbles w + swarNibbles w >>> 4) j &&& 0x0F#8 := by
        rw [← byteLane_maskM4 j hj, ← byteLane_and]
        rfl
    _ = (byteLane (swarNibbles w) j + byteLane (swarNibbles w) j >>> 4) &&& 0x0F#8 := by
        rw [byteLane_add hcarry hj]
        exact add_and_0F_congr _ (byteLane_shiftRight_and _ (by decide) j)
    _ = countOfByte (byteLane w j) := by
        rw [byteLane_swarNibbles w hj]
        rfl

/-! The multiplication by L8 -/

/-- The product by L8, lane by lane: lanes 0 to 7 add up the lanes below, and the rest overflows. -/
theorem lanesValue_mul_constL8 (c : Nat → Nat) :
    lanesValue c * constL8.toNat = lanesValue (fun j => ∑ i ∈ Finset.range (j + 1), c i) +
      2 ^ 64 * lanesValue (fun j => ∑ i ∈ Finset.Ico (j + 1) 8, c i) := by
  have hL8 : constL8.toNat = lanesValue fun _ => 1 := by decide
  rw [hL8]
  simp only [lanesValue, mul_one, Nat.reduceAdd, zero_add, Finset.range_one, Finset.sum_singleton,
    Finset.sum_range_succ, Nat.reducePow, Nat.one_le_ofNat, Finset.sum_Ico_succ_top,
    Nat.Ico_succ_singleton, Nat.reduceLeDiff, Std.le_refl, Finset.Ico_eq_empty_of_le, Finset.sum_empty,
    mul_zero, add_zero]
  ring

/-- R94: when the lanes of v add up to less than 256, lane j of v * L8 is the sum of lanes 0 to j. -/
theorem byteLane_mul_constL8 {v : Word} (h : ∑ i ∈ Finset.range 8, (byteLane v i).toNat < 256)
    {j : Nat} (hj : j < 8) :
    (byteLane (v * constL8) j).toNat = ∑ i ∈ Finset.range (j + 1), (byteLane v i).toNat := by
  have hlt : ∀ j < 8, ∑ i ∈ Finset.range (j + 1), (byteLane v i).toNat < 256 := fun j hj =>
    (Finset.sum_le_sum_of_subset (Finset.range_subset_range.2 (by omega))).trans_lt h
  refine byteLane_of_lanes (c := fun j => ∑ i ∈ Finset.range (j + 1), (byteLane v i).toNat) hlt ?_ hj
  rw [BitVec.toNat_mul, toNat_eq_lanes v, lanesValue_mul_constL8, Nat.add_mul_mod_self_left]
  exact Nat.mod_eq_of_lt (lanesValue_lt hlt)

/-! Counting the set positions of a word by byte lanes -/

/-- The set positions of a word within byte lane j are the set positions of that byte. -/
theorem card_bytePositions (w : Word) {j : Nat} (hj : j < 8) :
    (bytePositions (byteLane w j)).card =
      ((setPositions w).filter fun p => 8 * j ≤ p ∧ p ≤ 8 * j + 7).card := by
  rw [← Finset.card_map (addLeftEmbedding (8 * j))]
  congr 1
  ext p
  simp only [bytePositions, Finset.mem_map, Finset.mem_filter, Finset.mem_range, byteLane_getLsbD,
    mem_setPositions, addLeftEmbedding_apply]
  constructor
  · rintro ⟨i, ⟨hi, hset⟩, rfl⟩
    have hset : w.getLsbD (8 * j + i) = true := by simpa [hi] using hset
    exact ⟨⟨by omega, hset⟩, by omega, by omega⟩
  · rintro ⟨⟨hp, hset⟩, hlow, hhigh⟩
    have hsum : 8 * j + (p - 8 * j) = p := by omega
    have hi : p - 8 * j < 8 := by omega
    exact ⟨p - 8 * j, ⟨hi, by simp [hi, hsum, hset]⟩, hsum⟩

/-- Lane j of byteCounts counts the set positions of byte lane j. -/
theorem toNat_byteLane_byteCounts (w : Word) {j : Nat} (hj : j < 8) :
    (byteLane (byteCounts w) j).toNat =
      ((setPositions w).filter fun p => 8 * j ≤ p ∧ p ≤ 8 * j + 7).card := by
  rw [byteLane_byteCounts w hj, countOfByte_toNat, card_bytePositions w hj]

/-- The set positions up to the end of lane j, lane by lane. -/
theorem card_setPositions_le_eq_sum (w : Word) (j : Nat) :
    ((setPositions w).filter (· ≤ 8 * j + 7)).card =
      ∑ i ∈ Finset.range (j + 1), ((setPositions w).filter fun p => 8 * i ≤ p ∧ p ≤ 8 * i + 7).card := by
  have hlanes : ∀ p ∈ (setPositions w).filter (· ≤ 8 * j + 7), p / 8 ∈ Finset.range (j + 1) := by
    intro p hp
    have := (Finset.mem_filter.1 hp).2
    rw [Finset.mem_range]
    omega
  rw [Finset.card_eq_sum_card_fiberwise hlanes]
  refine Finset.sum_congr rfl fun i hi => ?_
  have hi : i < j + 1 := Finset.mem_range.1 hi
  rw [Finset.filter_filter]
  congr 1
  refine Finset.filter_congr fun p _ => ?_
  omega

/-- Lane j of bytePrefix counts the set positions 0 to 8j + 7. -/
theorem toNat_byteLane_bytePrefix (w : Word) {j : Nat} (hj : j < 8) :
    (byteLane (bytePrefix w) j).toNat = ((setPositions w).filter (· ≤ 8 * j + 7)).card := by
  have hsum : ∀ j < 8, ∑ i ∈ Finset.range (j + 1), (byteLane (byteCounts w) i).toNat =
      ((setPositions w).filter (· ≤ 8 * j + 7)).card := by
    intro j hj
    rw [card_setPositions_le_eq_sum]
    refine Finset.sum_congr rfl fun i hi => ?_
    have hi : i < j + 1 := Finset.mem_range.1 hi
    exact toNat_byteLane_byteCounts w (by omega)
  have htotal : ∑ i ∈ Finset.range 8, (byteLane (byteCounts w) i).toNat < 256 := by
    have hle := (Finset.card_filter_le (setPositions w) (· ≤ 8 * 7 + 7)).trans (card_setPositions_le w)
    rw [hsum 7 (by omega)]
    omega
  rw [bytePrefix, byteLane_mul_constL8 htotal hj, hsum j hj]

/-- Settles O51: the folds count the lanes, and the multiplication adds them up. -/
theorem bytePrefixLanesCount : Obligations.BytePrefixLanesCount := fun w _ hj =>
  ⟨toNat_byteLane_byteCounts w hj, toNat_byteLane_bytePrefix w hj⟩

/-- A shift by 56 leaves the top byte. -/
theorem toNat_shiftRight_56 (v : Word) : (v >>> 56).toNat = (byteLane v 7).toNat := by
  have := v.isLt
  rw [byteLane_toNat, BitVec.toNat_ushiftRight, Nat.shiftRight_eq_div_pow]
  omega

/-- Settles O50: the top lane of bytePrefix counts all positions. -/
theorem countingCircuitIsPopcount : Obligations.CountingCircuitIsPopcount := by
  intro w
  have hall : (setPositions w).filter (· ≤ 8 * 7 + 7) = setPositions w := by
    refine Finset.filter_true_of_mem fun p hp => ?_
    have := ((mem_setPositions w p).1 hp).1
    omega
  rw [← toNat_eq_iff_eq_toWord (popcount_le w), popcount_eq_card, swarPopcount, toNat_shiftRight_56,
    toNat_byteLane_bytePrefix w (by omega), hall]

end Sys2Proof.Proofs

/-! Rank (spec/42_rank.md): RANK1 and RANK0 count the set and the clear positions up to the index. RANK0 is
RANK1 of the complement, and the laws of R112 and R113 and the formulations of R107 to R110 follow from
what the prefix of a word counts. -/
namespace Sys2Proof.Proofs

open Sys2Proof.Machine Sys2Proof.Safety

/-! The commands -/

/-- Settles O18: the answer of RANK1 counts the masked word, whose set positions are those up to i. -/
theorem rank1CountsSetPrefix : Obligations.Rank1CountsSetPrefix := by
  refine ⟨rfl, fun s => ?_⟩
  obtain ⟨hanswer, hfault⟩ := exec_of_index_check (i := .rank1) (s := s) rfl
  refine ⟨fun hin => ?_, hfault⟩
  rw [← popcount_and_lowMask _ (by omega)]
  exact hanswer hin

/-- Settles O19: the answer of RANK0 is the difference, which is the number of clear positions up to i. -/
theorem rank0CountsClearPrefix : Obligations.Rank0CountsClearPrefix := by
  refine ⟨rfl, fun s => ?_⟩
  obtain ⟨hanswer, hfault⟩ := exec_of_index_check (i := .rank0) (s := s) rfl
  refine ⟨fun hin => ?_, hfault⟩
  have hi : (sint s.current.b).toNat ≤ 63 := by omega
  have hcast : ((sint s.current.b).toNat : Int) = sint s.current.b := Int.toNat_of_nonneg hin.1
  have hdiff := sub_popcount_and_lowMask s.current.a hi
  have hclear := (hanswer hin).trans (by rw [hdiff])
  rw [popcount_and_lowMask _ hi, hcast] at hdiff
  exact ⟨hdiff ▸ hclear, hclear⟩

/-! What the prefix of a word counts -/

/-- R112: positions 0 to 63 are the whole word. -/
theorem and_lowMaskEntry_64 (w : Word) : w &&& lowMaskEntry 64 = w := BitVec.and_allOnes

theorem popcount_and_lowMask_zero (w : Word) : popcount (w &&& lowMaskEntry 0) = 0 := by
  rw [popcount_eq_card, setPositions_and_lowMask w (by omega)]
  simp

/-- R107: a left shift drops the positions above the prefix and moves the others. -/
theorem setPositions_shiftLeft (w : Word) (k : Nat) :
    setPositions (w <<< k) =
      (setPositions (w &&& lowMaskEntry (64 - k))).map (addRightEmbedding k) := by
  ext j
  rw [setPositions_and_lowMask w (by omega)]
  simp only [mem_setPositions, BitVec.getLsbD_shiftLeft, Bool.and_eq_true, Bool.not_eq_true',
    decide_eq_true_eq, decide_eq_false_iff_not, Finset.mem_map, Finset.mem_filter,
    addRightEmbedding_apply]
  constructor
  · rintro ⟨hj, ⟨-, hk⟩, hset⟩
    exact ⟨j - k, ⟨⟨by omega, hset⟩, by omega⟩, by omega⟩
  · rintro ⟨p, ⟨⟨hp, hset⟩, hlt⟩, rfl⟩
    exact ⟨by omega, ⟨by omega, by omega⟩, by rwa [Nat.add_sub_cancel]⟩

/-- R107: the shift formulation counts the prefix. -/
theorem popcount_shiftLeft (w : Word) (k : Nat) :
    popcount (w <<< k) = popcount (w &&& lowMaskEntry (64 - k)) := by
  rw [popcount_eq_card, popcount_eq_card, setPositions_shiftLeft, Finset.card_map]

section Prefix

variable (w : Word) {i : Nat} (hi : i ≤ 63)
include hi

/-- R113: position i adds its bit to the count of the positions below it. -/
theorem popcount_and_lowMask_succ :
    popcount (w &&& lowMaskEntry (i + 1)) = popcount (w &&& lowMaskEntry i) + (bitAt w i).toNat := by
  rw [popcount_and_lowMask w hi, popcount_eq_card, setPositions_and_lowMask w (by omega), bitAt_eq_ite]
  cases hb : w.getLsbD i with
  | true => exact card_le_eq_card_lt _ ((mem_setPositions w i).2 ⟨by omega, hb⟩)
  | false =>
    have hne : ∀ p ∈ setPositions w, p ≠ i := by
      rintro p hp rfl
      simp [hb] at hp
    refine congrArg Finset.card (Finset.filter_congr fun p hp => ?_)
    have := hne p hp
    omega

/-- R113: the prefixes of the word and of its complement count each of the i + 1 positions once. -/
theorem popcount_and_lowMask_add_not :
    popcount (w &&& lowMaskEntry (i + 1)) + popcount (~~~w &&& lowMaskEntry (i + 1)) = i + 1 := by
  rw [popcount_and_lowMask _ hi, popcount_and_lowMask _ hi, setPositions_not, card_prefix w hi]

/-- R110: the OR with the high mask is the complement of the complement's prefix. -/
theorem not_or_highMaskEntry :
    ~~~(w ||| highMaskEntry (i + 1)) = ~~~w &&& lowMaskEntry (i + 1) := by
  rw [highMaskEntry_eq_not (by omega), BitVec.not_or, BitVec.not_not]

/-- R108, R109: RANK0 counts the prefix of the complement. -/
theorem gives_rank0 : Gives .rank0 w (arg i) (arg (popcount (~~~w &&& lowMaskEntry (i + 1)))) := by
  have hdiff : ((i + 1) - popcount (w &&& lowMaskEntry (i + 1)) : Int) =
      popcount (~~~w &&& lowMaskEntry (i + 1)) := by
    have := popcount_and_lowMask_add_not w hi
    omega
  exact gives_arg (by omega) ((if_pos (by omega)).trans (congrArg (Except.ok ∘ toWord) hdiff))

end Prefix

theorem sint_arg_popcount (w : Word) : sint (arg (popcount w)) = popcount w :=
  sint_arg (by have := popcount_le w; omega)

theorem arg_toNat (w : Word) : arg w.toNat = w := by
  rw [← BitVec.toNat_inj, toNat_arg w.isLt]

/-! The laws and the formulations -/

/-- Settles O44: the laws are those of the prefix counts, at both ends and from one index to the next. -/
theorem rankLaws : Obligations.RankLaws := by
  refine fun w => ⟨⟨_, gives_rank1 (by omega) w, gives_get (by omega) ?first⟩,
    ⟨_, gives_rank1 (by omega) w, gives_countOnes ?last _⟩,
    fun i hi => ⟨_, _, gives_rank1 hi w, gives_rank0 w hi, ?sum, gives_rank1 hi _,
      fun hpos => ⟨_, _, gives_rank1 (by omega) w, gives_get hi rfl, ?growth⟩⟩⟩
  case first =>
    rw [popcount_and_lowMask_succ w (by omega), popcount_and_lowMask_zero, Nat.zero_add, arg_toNat]
  case last => rw [and_lowMaskEntry_64]
  case sum => rw [toNat_arg_popcount, toNat_arg_popcount, popcount_and_lowMask_add_not w hi]
  case growth =>
    rw [toNat_arg_popcount, toNat_arg_popcount, popcount_and_lowMask_succ w hi, Nat.sub_add_cancel hpos]

/-- Settles O45: each formulation is arithmetic on the counts of the two prefixes, which add to i + 1. -/
theorem rankFormulationsAgree : Obligations.RankFormulationsAgree := by
  intro w i hi
  have hsum := popcount_and_lowMask_add_not w hi
  refine ⟨_, _, gives_rank1 hi w, gives_rank0 w hi, ?_⟩
  rw [sint_arg_popcount, sint_arg_popcount]
  refine ⟨?shift, rfl, ?highOr, ?rebased, ?literal⟩
  case shift => rw [rank1Shift, popcount_shiftLeft, show 64 - (63 - i) = i + 1 by omega]
  case highOr => rw [rank0HighOr, sub_popcount, ← popcount_not, not_or_highMaskEntry w hi]
  case rebased =>
    unfold rank0Rebased
    omega
  case literal =>
    unfold rank0Literal
    omega

end Sys2Proof.Proofs

/-! Least set bit (spec/43_least_set_bit.md): LEAST_SET_BIT and LEAST_SET_BIT_INDEX answer their formulas in
every state. The laws of R117, R120 and R121 follow from where the lowest set position p is: the isolated word is
BIT[p], and the index is p, the set position with none below it. -/
namespace Sys2Proof.Proofs

open Sys2Proof.Machine Sys2Proof.Safety

/-! The commands -/

/-- Settles O20: the answer of LEAST_SET_BIT is its formula, without a check. -/
theorem leastSetBitIsolatesLowest : Obligations.LeastSetBitIsolatesLowest := ⟨rfl, fun _ => exec_of_ok rfl⟩

theorem lowestIndex_zero : lowestIndex 0#64 = -1 := if_pos rfl

theorem lowestIndex_of_ne_zero {w : Word} (hw : w ≠ 0#64) :
    lowestIndex w = (setPositions ((w - 1#64) ^^^ w)).card - 1 := by
  rw [lowestIndex, if_neg hw, popcount_eq_card]

/-- Settles O21: the answer of LEAST_SET_BIT_INDEX is `lowestIndex`, in its case for the zero word and in the
other one. -/
theorem leastSetBitIndexOfLowest : Obligations.LeastSetBitIndexOfLowest := by
  refine ⟨rfl, fun s => ?_⟩
  have hanswer : exec .leastSetBitIndex s =
      .next (afterResponse s (toWord (lowestIndex s.current.a)) .ok) := exec_of_ok rfl
  constructor
  · intro hzero
    rwa [hzero, lowestIndex_zero, toWord_neg_one] at hanswer
  · intro hne
    rwa [lowestIndex_of_ne_zero hne] at hanswer

theorem gives_leastSetBit (w b : Word) : Gives .leastSetBit w b (isolateLowest w) :=
  (gives_iff ..).2 rfl

theorem gives_leastSetBitIndex (w b : Word) : Gives .leastSetBitIndex w b (toWord (lowestIndex w)) :=
  (gives_iff ..).2 rfl

theorem gives_select1 (w : Word) {k : Nat} (hk : k < 2 ^ 63) :
    Gives .select1 w (arg k) (toWord (sel1 w k)) :=
  gives_arg hk (if_pos (e := .error .negativeSelectRank) (Int.natCast_nonneg k))

/-! The isolated word -/

/-- R117: isolating the lowest set bit is masking with the two's complement. -/
theorem isolateLowest_eq_and_neg (w : Word) : isolateLowest w = w &&& (0#64 - w) := by
  have hneg : 0#64 - w = ~~~(w - 1#64) := by
    rw [← BitVec.not_neg, BitVec.not_not, BitVec.zero_sub]
  rw [hneg, isolateLowest]
  refine BitVec.eq_of_getElem_eq fun j hj => ?_
  simp only [BitVec.getElem_and, BitVec.getElem_xor, BitVec.getElem_not]
  cases w[j] <;> simp

/-- R117: nothing is isolated exactly from the zero word. -/
theorem isolateLowest_eq_zero_iff (w : Word) : isolateLowest w = 0#64 ↔ w = 0#64 := by
  constructor
  · intro hzero
    by_contra hw
    obtain ⟨p, hp⟩ := exists_lowestSet hw
    have hand : w &&& bitEntry p ≠ 0#64 :=
      (and_bitEntry_ne_zero_iff w (Nat.le_of_lt_succ hp.1)).2 hp.2.1
    rw [← isolateLowest_eq hp, hzero] at hand
    exact hand BitVec.and_zero
  · rintro rfl
    rfl

/-! The index -/

/-- R120: the lowest set position is the set position with none below it. -/
theorem isLowestSet_iff_card (w : Word) (p : Nat) :
    IsLowestSet w p ↔ p ∈ setPositions w ∧ ((setPositions w).filter (· < p)).card = 0 := by
  rw [IsLowestSet, mem_setPositions, and_assoc]
  refine and_congr_right fun hp => and_congr_right fun _ => ?_
  simp only [Finset.card_eq_zero, Finset.filter_eq_empty_iff, mem_setPositions]
  constructor
  · rintro hlow j ⟨-, hset⟩ hlt
    simp [hlow j hlt] at hset
  · intro hnone j hlt
    exact Bool.eq_false_of_not_eq_true fun hset => hnone ⟨hlt.trans hp, hset⟩ hlt

/-- R121: the index of the lowest set bit is SELECT1 at 0, the sentinel of the zero word included. -/
theorem sel1_zero (w : Word) : sel1 w 0 = lowestIndex w := by
  by_cases hw : w = 0#64
  · subst hw
    rfl
  · obtain ⟨p, hp⟩ := exists_lowestSet hw
    obtain ⟨hmem, hbelow⟩ := (isLowestSet_iff_card w p).1 hp
    have hrank := (card_lt_eq_iff_card_le _ hmem 0).1 hbelow
    obtain ⟨q, hq, hrankQ, hsel⟩ := sel1_found w (Finset.card_pos.2 ⟨p, hmem⟩)
    rw [hsel, lowestIndex_eq hp, kth_unique _ hq hmem (hrankQ.trans hrank.symm)]

/-! The laws -/

/-- Settles O46: for a word other than zero, the laws are those of BIT[p] at the lowest set position p. -/
theorem leastSetBitLaws : Obligations.LeastSetBitLaws := by
  intro w
  refine ⟨_, _, gives_leastSetBit w _, gives_leastSetBitIndex w _, isolateLowest_eq_zero_iff w,
    isolateLowest_eq_and_neg w, ?select, ?zero, ?nonzero⟩
  case select =>
    rw [← sel1_zero]
    exact gives_select1 w (k := 0) (by omega)
  case zero =>
    rintro rfl
    exact ⟨toWord_neg_one, gives_countOnes (n := 0) (by decide) _⟩
  case nonzero =>
    intro hw
    obtain ⟨p, hp⟩ := exists_lowestSet hw
    rw [lowestIndex_eq hp, isolateLowest_eq hp]
    obtain ⟨hlt, hset, hlow⟩ := hp
    have hp63 : p ≤ 63 := by omega
    refine ⟨gives_get hp63 ?one, fun j hj => ?below, gives_lutBit hp63 _,
      gives_countOnes (popcount_bitEntry hp63) _, gives_flip hp63 w⟩
    case one => rw [bitAt_eq_ite, if_pos hset]
    case below =>
      have hjp : j < p := hj.trans_eq (toNat_arg (by omega))
      exact gives_get (by omega) ((bitAt_eq_zero_iff w j).2 (hlow j hjp))

end Sys2Proof.Proofs

/-! Select (spec/44_select.md): SELECT1 and SELECT0 answer the k-th set and the k-th clear position or the
sentinel. SELECT0 is SELECT1 of the complement, so each fact about the clear positions is one about the set
positions of the complement. -/
namespace Sys2Proof.Proofs

open Sys2Proof.Machine Sys2Proof.Safety

/-! The commands -/

/-- R123, R124: a command that answers `sel1` of the word w behind the rank check answers the position of
rank k + 1 in w, or the sentinel, and faults for a negative rank. -/
theorem exec_of_rank_check {i : Instr} {s : State} {w : Word}
    (h : commandAnswer i s.current.a (sint s.current.b) =
      if 0 ≤ sint s.current.b then .ok (toWord (sel1 w (sint s.current.b).toNat))
      else .error .negativeSelectRank) :
    (0 ≤ sint s.current.b ∧ sint s.current.b < (setPositions w).card →
      ∃ p ∈ setPositions w, ((setPositions w).filter (· ≤ p)).card = sint s.current.b + 1 ∧
        exec i s = .next (afterResponse s (toWord p) .ok)) ∧
    (0 ≤ sint s.current.b ∧ (setPositions w).card ≤ sint s.current.b →
      exec i s = .next (afterResponse s allOnes .ok)) ∧
    (sint s.current.b < 0 → exec i s = .fault (.contractViolation .negativeSelectRank s.current)) := by
  refine ⟨fun ⟨hnonneg, hlt⟩ => ?found, fun ⟨hnonneg, hle⟩ => ?notFound,
    fun hneg => exec_of_error (h.trans (if_neg (by omega)))⟩
  case found =>
    obtain ⟨p, hp, hrank, hsel⟩ := sel1_found w (k := (sint s.current.b).toNat) (by omega)
    refine ⟨p, hp, by omega, exec_of_ok (h.trans ?_)⟩
    rw [if_pos hnonneg, hsel]
  case notFound =>
    refine exec_of_ok (h.trans ?_)
    rw [if_pos hnonneg, sel1_notFound w (by omega), toWord_neg_one]

/-- Settles O22: the position that `sel1` finds is the only one of its rank. -/
theorem select1FindsKthSet : Obligations.Select1FindsKthSet := by
  refine ⟨rfl, fun s => ?_⟩
  obtain ⟨hfound, hnotFound, hfault⟩ := exec_of_rank_check (i := .select1) (s := s) rfl
  refine ⟨fun hin => ?_, hnotFound, hfault⟩
  obtain ⟨p, hp, hrank, hexec⟩ := hfound hin
  exact ⟨p, hp, hrank, fun q hq hrankQ => kth_unique _ hq hp (by omega), hexec⟩

/-- Settles O23: the clear positions are the set positions of the complement. -/
theorem select0FindsKthClear : Obligations.Select0FindsKthClear := by
  refine ⟨rfl, fun s => ?_⟩
  obtain ⟨hfound, hnotFound, hfault⟩ := exec_of_rank_check (i := .select0) (s := s) rfl
  rw [setPositions_not] at hfound hnotFound
  refine ⟨fun hin => ?_, hnotFound, hfault⟩
  obtain ⟨p, hp, hrank, hexec⟩ := hfound hin
  rw [card_le_eq_card_lt _ hp] at hrank
  exact ⟨p, hp, by omega, hexec⟩

/-! Select and rank -/

theorem gives_select0 (w : Word) {k : Nat} (hk : k < 2 ^ 63) :
    Gives .select0 w (arg k) (toWord (sel1 (~~~w) k)) :=
  gives_arg hk (if_pos (e := .error .negativeSelectRank) (Int.natCast_nonneg k))

theorem toWord_sel1_popcount (w : Word) : toWord (sel1 w (popcount w)) = allOnes := by
  rw [sel1_notFound w (popcount_eq_card w).ge, toWord_neg_one]

/-- R124: below the count of a word, `sel1` answers a set position that ends a prefix with k + 1 of them. -/
theorem sel1_found_prefix {w : Word} {k : Nat} (hk : k < popcount w) :
    ∃ p ≤ 63, w.getLsbD p = true ∧ popcount (w &&& lowMaskEntry (p + 1)) = k + 1 ∧
      toWord (sel1 w k) = arg p := by
  obtain ⟨p, hp, hrank, hsel⟩ := sel1_found w (hk.trans_eq (popcount_eq_card w))
  obtain ⟨hp64, hset⟩ := (mem_setPositions w p).1 hp
  have hp63 : p ≤ 63 := by omega
  exact ⟨p, hp63, hset, (popcount_and_lowMask w hp63).trans hrank, congrArg toWord hsel⟩

/-- Settles O47: GET and RANK1 read the position that `sel1` found. -/
theorem selectRankInverse : Obligations.SelectRankInverse := by
  intro w
  have hle := popcount_le w
  refine ⟨⟨_, gives_countOnes rfl _, toWord_sel1_popcount w ▸ gives_select1 w (by omega),
    fun k hk => ?_⟩,
    fun k hk => ⟨_, gives_select0 w hk, gives_select1 _ hk⟩⟩
  rw [toNat_arg_popcount] at hk
  obtain ⟨p, hp, hset, hprefix, hsel⟩ := sel1_found_prefix hk
  refine ⟨_, gives_select1 w (by omega), ?_⟩
  rw [hsel, ← hprefix]
  exact ⟨gives_get hp (by rw [bitAt_eq_ite, if_pos hset]), gives_rank1 hp w⟩

/-- Settles O48: GET reads the complement's set position as 0, and RANK0 counts the complement's prefix. -/
theorem selectZeroRankInverse : Obligations.SelectZeroRankInverse := by
  intro w
  have hle := popcount_le (~~~w)
  refine ⟨_, gives_countZeros rfl _, toWord_sel1_popcount (~~~w) ▸ gives_select0 w (by omega),
    fun k hk => ?_⟩
  rw [toNat_arg_popcount] at hk
  obtain ⟨p, hp, hset, hprefix, hsel⟩ := sel1_found_prefix hk
  have hclear : w.getLsbD p = false := by
    simpa [show p < 64 by omega] using hset
  refine ⟨_, gives_select0 w (by omega), ?_⟩
  rw [hsel, ← hprefix]
  exact ⟨gives_get hp ((bitAt_eq_zero_iff w p).2 hclear), gives_rank0 w hp⟩

end Sys2Proof.Proofs

/-! The byte-parallel select datapath (spec/44_select.md R130 to R142). A lane test gives a flag in each lane,
0x80 or 0. Prefix counts grow, so the number of lanes whose count is at most k is the place of the first one
that exceeds k: applied to the counts of the bytes this gives the byte of the wanted position, and applied to
the counts within that byte, the place in it. -/
namespace Sys2Proof.Proofs

open Sys2Proof.Machine Sys2Proof.Safety

/-! The lane operations -/

theorem byteLane_constL8 : ∀ j < 8, byteLane constL8 j = 1#8 := by decide

theorem byteLane_constH8 : ∀ j < 8, byteLane constH8 j = 0x80#8 := by decide

theorem byteLane_not_constH8 : ∀ j < 8, byteLane (~~~constH8) j = 0x7F#8 := by decide

/-- Setting the high bit of a byte adds 128 to its low seven bits. -/
theorem toNat_or_80 : ∀ y : BitVec 8, (y ||| 0x80#8).toNat = 128 + y.toNat % 128 := by decide

theorem toNat_and_7F : ∀ y : BitVec 8, (y &&& 0x7F#8).toNat = y.toNat % 128 := by decide

/-- Masking with 0x80 keeps the high bit alone. -/
theorem and_80_eq_ite : ∀ y : BitVec 8, y &&& 0x80#8 = if 128 ≤ y.toNat then 0x80#8 else 0#8 := by decide

/-- R133 on one byte: subtracting 1 below a set high bit clears that bit exactly for zero. -/
theorem nonZero_byte : ∀ y : BitVec 8,
    (((y ||| 0x80#8) - 1#8) ||| y) &&& 0x80#8 = if y = 0#8 then 0#8 else 0x80#8 := by decide

/-- Settles O53: with the high bits set no lane borrows, so the test acts on each byte alone. -/
theorem laneNonZeroTest : Obligations.LaneNonZeroTest := by
  intro x j hj
  have hborrow : ∀ j < 8, (byteLane constL8 j).toNat ≤ (byteLane (x ||| constH8) j).toNat := by
    intro j hj
    rw [byteLane_constL8 j hj, byteLane_or, byteLane_constH8 j hj, toNat_or_80]
    exact Nat.le_add_right_of_le (by decide)
  rw [nz8, byteLane_and, byteLane_or, byteLane_sub hborrow hj, byteLane_or, byteLane_constH8 j hj,
    byteLane_constL8 j hj, nonZero_byte]

theorem byte_xor_and (x y m : BitVec 8) : (x ^^^ y) &&& m = (x &&& m) ^^^ (y &&& m) := by
  refine BitVec.eq_of_getElem_eq fun i hi => ?_
  simp only [BitVec.getElem_and, BitVec.getElem_xor, Bool.and_xor_distrib_right]

/-- R132 on one byte: the difference from 128 + y keeps the high bit exactly for x ≤ y. -/
theorem compare_byte {x y : BitVec 8} (hx : x.toNat < 128) (hy : y.toNat < 128) :
    (((y ||| 0x80#8) - (x &&& 0x7F#8)) ^^^ x ^^^ y) &&& 0x80#8 =
      if x.toNat ≤ y.toNat then 0x80#8 else 0#8 := by
  have hmask : ∀ z : BitVec 8, z.toNat < 128 → z &&& 0x80#8 = 0#8 := fun z hz => by
    rw [and_80_eq_ite, if_neg (by omega)]
  have hdiff : ((y ||| 0x80#8) - (x &&& 0x7F#8)).toNat = 128 + y.toNat - x.toNat := by
    have hor := toNat_or_80 y
    have hand := toNat_and_7F x
    rw [BitVec.toNat_sub_of_le (BitVec.le_def.2 (by omega))]
    omega
  rw [byte_xor_and, byte_xor_and, hmask x hx, hmask y hy, BitVec.xor_zero, BitVec.xor_zero,
    and_80_eq_ite, hdiff]
  exact if_congr (by omega) rfl rfl

/-- Settles O52: in the domain no lane borrows, so the comparison acts on each byte alone. -/
theorem laneComparisonInDomain : Obligations.LaneComparisonInDomain := by
  intro x y hdom j hj
  obtain ⟨hx, hy⟩ := hdom j hj
  have hborrow : ∀ j < 8, (byteLane (x &&& ~~~constH8) j).toNat ≤ (byteLane (y ||| constH8) j).toNat := by
    intro j hj
    rw [byteLane_and, byteLane_or, byteLane_constH8 j hj, byteLane_not_constH8 j hj, toNat_or_80,
      toNat_and_7F]
    omega
  rw [leq8, byteLane_and, byteLane_xor, byteLane_xor, byteLane_sub hborrow hj, byteLane_and, byteLane_or,
    byteLane_constH8 j hj, byteLane_not_constH8 j hj, compare_byte hx hy]

/-! Flags and their number -/

theorem lanesValue_congr {c d : Nat → Nat} (h : ∀ j < 8, c j = d j) : lanesValue c = lanesValue d := by
  simp only [lanesValue, h 0 (by omega), h 1 (by omega), h 2 (by omega), h 3 (by omega), h 4 (by omega),
    h 5 (by omega), h 6 (by omega), h 7 (by omega)]

theorem lanesValue_const_mul (a : Nat) (c : Nat → Nat) :
    lanesValue (fun j => a * c j) = a * lanesValue c := by
  unfold lanesValue
  ring

/-- R135: shifting flags by 7 puts a 1 in the low bit of each true lane. -/
theorem toNat_byteLane_flags_shiftRight {c : Word} {P : Nat → Prop} [DecidablePred P]
    (h : ∀ j < 8, byteLane c j = if P j then 0x80#8 else 0#8) {j : Nat} (hj : j < 8) :
    (byteLane (c >>> 7) j).toNat = if P j then 1 else 0 := by
  refine byteLane_of_lanes (c := fun j => if P j then 1 else 0) (fun j _ => by split <;> omega) ?_ hj
  have hlanes : c.toNat = lanesValue fun j => 128 * if P j then 1 else 0 := by
    rw [toNat_eq_lanes]
    refine lanesValue_congr fun j hj => ?_
    rw [h j hj]
    split <;> rfl
  rw [BitVec.toNat_ushiftRight, hlanes, lanesValue_const_mul, Nat.shiftRight_eq_div_pow]
  exact Nat.mul_div_cancel_left _ (by omega)

/-- R135: the multiplication by L8 adds up the true lanes below and at each lane. -/
theorem toNat_byteLane_flags_mul {c : Word} {P : Nat → Prop} [DecidablePred P]
    (h : ∀ j < 8, byteLane c j = if P j then 0x80#8 else 0#8) {j : Nat} (hj : j < 8) :
    (byteLane ((c >>> 7) * constL8) j).toNat = Nat.count P (j + 1) := by
  have hcount : ∀ j < 8,
      ∑ i ∈ Finset.range (j + 1), (byteLane (c >>> 7) i).toNat = Nat.count P (j + 1) := by
    intro j hj
    rw [Nat.count_eq_card_filter_range, Finset.card_filter]
    refine Finset.sum_congr rfl fun i hi => toNat_byteLane_flags_shiftRight h ?_
    have := Finset.mem_range.1 hi
    omega
  have htotal : ∑ i ∈ Finset.range 8, (byteLane (c >>> 7) i).toNat < 256 := by
    have hle : Nat.count P (7 + 1) ≤ 7 + 1 := Nat.count_le P
    rw [hcount 7 (by omega)]
    omega
  rw [byteLane_mul_constL8 htotal hj, hcount j hj]

/-- R135, R138: when the true lanes are the t lowest ones, their number is t. -/
theorem trueLanes_eq {c : Word} {t : Nat} (ht : t ≤ 8)
    (h : ∀ j < 8, byteLane c j = if j < t then 0x80#8 else 0#8) : trueLanes c = t := by
  have hrun : (Finset.range (7 + 1)).filter (· < t) = Finset.range t := by
    ext j
    rw [Finset.mem_filter, Finset.mem_range, Finset.mem_range]
    omega
  rw [trueLanes, toNat_shiftRight_56, toNat_byteLane_flags_mul h (by omega), Nat.count_eq_card_filter_range,
    hrun, Finset.card_range]

/-- R134, R137: multiplying a byte by L8 copies it into every lane. -/
theorem toNat_byteLane_replicate {v : Word} (hv : v.toNat < 256) {j : Nat} (hj : j < 8) :
    (byteLane (v * constL8) j).toNat = v.toNat := by
  have hlane : ∀ i, (byteLane v i).toNat = if i = 0 then v.toNat else 0 := by
    intro i
    rw [byteLane_toNat]
    split
    · subst i
      exact (congrArg (· % 256) (Nat.div_one _)).trans (Nat.mod_eq_of_lt hv)
    · have hpow : 2 ^ 8 ≤ 2 ^ (8 * i) := Nat.pow_le_pow_right (by omega) (by omega)
      rw [Nat.div_eq_of_lt (by omega)]
  have hsum : ∀ m, ∑ i ∈ Finset.range (m + 1), (byteLane v i).toNat = v.toNat := by
    intro m
    simp [hlane]
  rw [byteLane_mul_constL8 ((hsum 7).trans_lt hv) hj, hsum]

/-- R134, R138: comparing counts with a bound n that exactly the t lowest lanes keep gives t. -/
theorem trueLanes_leq8_replicate {x : Word} {n t : Nat} (hn : n < 128) (ht : t ≤ 8)
    (hx : ∀ j < 8, (byteLane x j).toNat < 128) (h : ∀ j < 8, (byteLane x j).toNat ≤ n ↔ j < t) :
    trueLanes (leq8 x (BitVec.ofNat 64 n * constL8)) = t := by
  have hv : (BitVec.ofNat 64 n).toNat = n := Nat.mod_eq_of_lt (by omega)
  have hlane : ∀ j < 8, (byteLane (BitVec.ofNat 64 n * constL8) j).toNat = n := fun j hj => by
    rw [toNat_byteLane_replicate (by omega) hj, hv]
  refine trueLanes_eq ht fun j hj => ?_
  rw [laneComparisonInDomain _ _ (fun i hi => ⟨hx i hi, (hlane i hi).trans_lt hn⟩) j hj, hlane j hj]
  exact if_congr (h j hj) rfl rfl

/-! Counting the set positions -/

/-- The number of set positions below n. -/
def prefixCount (w : Word) (n : Nat) : Nat := Nat.count (fun i => w.getLsbD i = true) n

theorem card_setPositions_lt (w : Word) {n : Nat} (hn : n ≤ 64) :
    ((setPositions w).filter (· < n)).card = prefixCount w n := by
  rw [prefixCount, Nat.count_eq_card_filter_range]
  congr 1
  ext j
  rw [Finset.mem_filter, Finset.mem_filter, mem_setPositions, Finset.mem_range]
  constructor
  · exact fun ⟨⟨_, hset⟩, hlt⟩ => ⟨hlt, hset⟩
  · exact fun ⟨hlt, hset⟩ => ⟨⟨by omega, hset⟩, hlt⟩

/-- A prefix has at most as many set positions as there are below a set position p exactly when it ends at p
or below. -/
theorem prefixCount_le_iff {w : Word} {p : Nat} (hset : w.getLsbD p = true) (n : Nat) :
    prefixCount w n ≤ prefixCount w p ↔ n ≤ p := by
  constructor
  · intro hle
    by_contra hlt
    exact (Nat.count_strict_mono hset (not_le.1 hlt)).not_ge hle
  · exact fun hle => Nat.count_monotone _ hle

/-- R131: lane j of bytePrefix counts the set positions of lanes 0 to j. -/
theorem toNat_byteLane_bytePrefix_eq_prefixCount (w : Word) {j : Nat} (hj : j < 8) :
    (byteLane (bytePrefix w) j).toNat = prefixCount w (8 * (j + 1)) := by
  rw [toNat_byteLane_bytePrefix w hj, ← card_setPositions_lt w (by omega)]
  congr 1
  refine Finset.filter_congr fun p _ => ?_
  omega

theorem toNat_byteLane_bytePrefix_le (w : Word) {j : Nat} (hj : j < 8) :
    (byteLane (bytePrefix w) j).toNat ≤ popcount w := by
  rw [toNat_byteLane_bytePrefix w hj, popcount_eq_card]
  exact Finset.card_filter_le _ _

/-- R124: `sel1` finds the set position with k set positions below it. -/
theorem sel1_found_prefixCount {w : Word} {k : Nat} (hk : k < popcount w) :
    ∃ p < 64, w.getLsbD p = true ∧ prefixCount w p = k ∧ sel1 w k = p := by
  obtain ⟨p, hp, hrank, hsel⟩ := sel1_found w (hk.trans_eq (popcount_eq_card w))
  obtain ⟨hp64, hset⟩ := (mem_setPositions w p).1 hp
  rw [← card_lt_eq_iff_card_le _ hp, card_setPositions_lt w hp64.le] at hrank
  exact ⟨p, hp64, hset, hrank, hsel⟩

/-! The first stage: the byte -/

/-- R134, R135: the offset counts the lanes whose prefix count is at most k, when these are the t lowest. -/
theorem selectByteOffset_eq {w : Word} {k t : Nat} (hk : k < 64) (ht : t ≤ 8)
    (h : ∀ j < 8, (byteLane (bytePrefix w) j).toNat ≤ k ↔ j < t) : selectByteOffset w k = 8 * t := by
  have hdom : ∀ j < 8, (byteLane (bytePrefix w) j).toNat < 128 := fun j hj => by
    have hlane := toNat_byteLane_bytePrefix_le w hj
    have hcount := popcount_le w
    omega
  rw [selectByteOffset, trueLanes_leq8_replicate (by omega) ht hdom h]

/-- R140: with too few set positions every lane is true. -/
theorem selectByteOffset_notFound {w : Word} {k : Nat} (hk : k < 64) (hcount : popcount w ≤ k) :
    selectByteOffset w k = 64 :=
  selectByteOffset_eq hk le_rfl fun _ hj =>
    iff_of_true ((toNat_byteLane_bytePrefix_le w hj).trans hcount) hj

/-- R135: otherwise the offset is that of the byte that holds the position. -/
theorem selectByteOffset_found {w : Word} {j r : Nat} (hj : j < 8) (hr : r < 8)
    (hset : w.getLsbD (8 * j + r) = true) (hk : prefixCount w (8 * j + r) < 64) :
    selectByteOffset w (prefixCount w (8 * j + r)) = 8 * j := by
  refine selectByteOffset_eq hk hj.le fun i hi => ?_
  rw [toNat_byteLane_bytePrefix_eq_prefixCount w hi, prefixCount_le_iff hset]
  omega

/-- A shift by a number of lanes brings that lane to lane 0, where the mask 0xFF keeps it alone. -/
theorem toNat_shiftRight_and_FF (v : Word) (j : Nat) :
    ((v >>> (8 * j)) &&& 0xFF#64).toNat = (byteLane v j).toNat := by
  rw [BitVec.toNat_and, BitVec.toNat_ushiftRight, Nat.shiftRight_eq_div_pow, byteLane_toNat]
  exact Nat.and_two_pow_sub_one_eq_mod _ 8

/-- R136: shifted up by one lane, the prefix counts are those of the lanes below. -/
theorem toNat_byteLane_bytePrefix_shiftLeft (w : Word) {j : Nat} (hj : j < 8) :
    (byteLane (bytePrefix w <<< 8) j).toNat = prefixCount w (8 * j) := by
  cases j with
  | zero =>
    have hzero : byteLane (bytePrefix w <<< 8) 0 = 0#8 := by
      refine BitVec.eq_of_getLsbD_eq fun i hi => ?_
      rw [byteLane_getLsbD, BitVec.getLsbD_shiftLeft]
      simp [hi]
    rw [hzero]
    rfl
  | succ j =>
    have hlane : byteLane (bytePrefix w <<< 8) (j + 1) = byteLane (bytePrefix w) j := by
      refine BitVec.eq_of_getLsbD_eq fun i hi => ?_
      rw [byteLane_getLsbD, byteLane_getLsbD, BitVec.getLsbD_shiftLeft,
        show 8 * (j + 1) + i - 8 = 8 * j + i by omega]
      simp [hi, show 8 * (j + 1) + i < 64 by omega, show ¬ 8 * (j + 1) + i < 8 by omega]
    rw [hlane, toNat_byteLane_bytePrefix_eq_prefixCount w (by omega)]

/-- R136: the residual is the rank less the set positions in the bytes below. -/
theorem selectResidual_eq (w : Word) (k : Nat) {j : Nat} (hj : j < 8) :
    selectResidual w k (8 * j) = k - prefixCount w (8 * j) := by
  rw [selectResidual, toNat_shiftRight_and_FF, toNat_byteLane_bytePrefix_shiftLeft w hj]

/-! The second stage: the place in the byte -/

/-- R130: lane j of DIAG is bit j. -/
theorem byteLane_constDIAG : ∀ j < 8, byteLane constDIAG j = BitVec.twoPow 8 j := by decide

/-- R137: the spread byte tests bit j in lane j. -/
theorem byteLane_nz8_spread {y : Word} (hy : y.toNat < 256) {j : Nat} (hj : j < 8) :
    byteLane (nz8 ((y * constL8) &&& constDIAG)) j = if y.getLsbD j = true then 0x80#8 else 0#8 := by
  have hcopy : (byteLane (y * constL8) j).getLsbD j = y.getLsbD j := by
    rw [BitVec.getLsbD, toNat_byteLane_replicate hy hj, BitVec.getLsbD]
  have hne : ∀ j < 8, BitVec.twoPow 8 j ≠ 0#8 := by decide
  rw [laneNonZeroTest _ _ hj, byteLane_and, byteLane_constDIAG j hj, BitVec.and_twoPow, hcopy]
  cases y.getLsbD j <;> simp [hne j hj]

/-- R137: lane j of T counts the set bits of the byte at positions 0 to j. -/
theorem toNat_byteLane_inByteCounts {y : Word} (hy : y.toNat < 256) {j : Nat} (hj : j < 8) :
    (byteLane (inByteCounts y) j).toNat = prefixCount y (j + 1) :=
  toNat_byteLane_flags_mul (fun _ hi => byteLane_nz8_spread hy hi) hj

/-- R138: comparing the counts of the byte with the count below its set position r gives r. -/
theorem trueLanes_leq8_inByteCounts {y : Word} (hy : y.toNat < 256) {r : Nat} (hr : r < 8)
    (hset : y.getLsbD r = true) :
    trueLanes (leq8 (inByteCounts y) (toWord (prefixCount y r) * constL8)) = r := by
  have hle : ∀ m, prefixCount y m ≤ m := fun _ => Nat.count_le _
  have hbound := hle r
  rw [toWord, BitVec.ofInt_natCast]
  refine trueLanes_leq8_replicate (by omega) hr.le (fun j hj => ?_) fun j hj => ?_
  · have hlane := hle (j + 1)
    rw [toNat_byteLane_inByteCounts hy hj]
    omega
  · rw [toNat_byteLane_inByteCounts hy hj, prefixCount_le_iff hset, Nat.succ_le_iff]

theorem getLsbD_shiftRight_and_FF (w : Word) (a : Nat) {i : Nat} (hi : i < 8) :
    ((w >>> a) &&& 0xFF#64).getLsbD i = w.getLsbD (a + i) := by
  have hmask : ∀ i < 8, (0xFF#64).getLsbD i = true := by decide
  rw [BitVec.getLsbD_and, BitVec.getLsbD_ushiftRight, hmask i hi, Bool.and_true]

/-- The set positions below a + r are those below a and those of the byte at offset a below r. -/
theorem prefixCount_add (w : Word) (a : Nat) {r : Nat} (hr : r ≤ 8) :
    prefixCount w (a + r) = prefixCount w a + prefixCount ((w >>> a) &&& 0xFF#64) r := by
  unfold prefixCount
  rw [Nat.count_add, Nat.count_eq_card_filter_range _ r, Nat.count_eq_card_filter_range _ r]
  congr 2
  refine Finset.filter_congr fun i hi => ?_
  rw [getLsbD_shiftRight_and_FF w a ((Finset.mem_range.1 hi).trans_le hr)]

/-- R138, with the residual of R136: the position in the byte at offset 8j is found. -/
theorem selectInByte_found {w : Word} {j r : Nat} (hr : r < 8) (hset : w.getLsbD (8 * j + r) = true) :
    selectInByte w (8 * j) (prefixCount w (8 * j + r) - prefixCount w (8 * j)) = r := by
  have hy : ((w >>> (8 * j)) &&& 0xFF#64).toNat < 256 := by
    rw [toNat_shiftRight_and_FF]
    exact (byteLane w j).isLt
  rw [← getLsbD_shiftRight_and_FF w _ hr] at hset
  rw [prefixCount_add w _ hr.le, Nat.cast_add, add_sub_cancel_left, selectInByte,
    trueLanes_leq8_inByteCounts hy hr hset]

/-! The datapath -/

/-- Settles O54: the offset of the position's byte and its place there add up to the position. -/
theorem selectDatapathIsSel1 : Obligations.SelectDatapathIsSel1 := by
  intro w k
  have hle := popcount_le w
  unfold selectDatapath
  rcases Nat.lt_or_ge k (popcount w) with hk | hk
  · obtain ⟨p, hp, hset, rfl, hsel⟩ := sel1_found_prefixCount hk
    obtain ⟨j, r, hr, rfl⟩ : ∃ j r, r < 8 ∧ p = 8 * j + r :=
      ⟨p / 8, p % 8, Nat.mod_lt _ (by omega), (Nat.div_add_mod p 8).symm⟩
    have hj : j < 8 := by omega
    rw [if_neg (by omega), selectByteOffset_found hj hr hset (by omega), if_neg (by omega),
      selectResidual_eq w _ hj, selectInByte_found hr hset, hsel, Nat.cast_add]
  · rw [sel1_notFound w ((popcount_eq_card w).symm.trans_le hk)]
    split
    · rfl
    · rw [if_pos (selectByteOffset_notFound (by omega) hk)]

end Sys2Proof.Proofs

/-! Table reads (spec/45_lut_read.md): LUT_BIT, LUT_NOT_BIT, LUT_LOW_MASK and LUT_HIGH_MASK answer the entry
at sint(B), or violate the contract of their table's index range. The two mask tables have index 64 too. -/
namespace Sys2Proof.Proofs

open Sys2Proof.Machine Sys2Proof.Safety

/-- Settles O24: the answer of LUT_BIT is its entry behind the index check. -/
theorem lutBitReadsEntry : Obligations.LutBitReadsEntry := ⟨rfl, fun _ => exec_of_index_check rfl⟩

/-- Settles O25: the answer of LUT_NOT_BIT is its entry behind the index check. -/
theorem lutNotBitReadsEntry : Obligations.LutNotBitReadsEntry := ⟨rfl, fun _ => exec_of_index_check rfl⟩

/-! The mask tables -/

/-- R36: below index 64 the low mask is a power of two less one. -/
theorem lowMaskEntry_of_le {i : Nat} (hi : i ≤ 63) : lowMaskEntry i = 1#64 <<< i - 1#64 := if_pos hi

theorem lowMaskEntry_64 : lowMaskEntry 64 = allOnes := rfl

/-- R37, R39: below index 64 the high mask is the complement of the power of two less one. -/
theorem highMaskEntry_of_le {i : Nat} (hi : i ≤ 63) : highMaskEntry i = ~~~(1#64 <<< i - 1#64) := by
  rw [highMaskEntry_eq_not (by omega), lowMaskEntry_of_le hi]

theorem highMaskEntry_64 : highMaskEntry 64 = 0#64 := by
  rw [highMaskEntry_eq_not le_rfl, lowMaskEntry_64]
  exact BitVec.not_allOnes

/-- R148, R149: a command that answers entry f(sint(B)) of a mask table answers it at indices 0 to 63 and at
index 64, with the frame of a response, and faults outside the table. -/
theorem exec_of_mask_check {i : Instr} {s : State} {f : Nat → Word}
    (h : commandAnswer i s.current.a (sint s.current.b) =
      if 0 ≤ sint s.current.b ∧ sint s.current.b ≤ 64 then .ok (f (sint s.current.b).toNat)
      else .error .lutIndex) :
    (0 ≤ sint s.current.b ∧ sint s.current.b ≤ 63 →
      exec i s = .next (afterResponse s (f (sint s.current.b).toNat) .ok)) ∧
    (sint s.current.b = 64 → exec i s = .next (afterResponse s (f 64) .ok)) ∧
    (sint s.current.b < 0 ∨ 64 < sint s.current.b →
      exec i s = .fault (.contractViolation .lutIndex s.current)) := by
  refine ⟨fun hin => ?below, fun hlast => ?last, fun hout => ?outside⟩
  case below => exact exec_of_ok (h.trans (if_pos (by omega)))
  case last => exact exec_of_ok (h.trans (by rw [hlast]; rfl))
  case outside => exact exec_of_error (h.trans (if_neg (by omega)))

/-- Settles O26: LUT_LOW_MASK reads `lowMaskEntry`, below index 64 and at it. -/
theorem lutLowMaskReadsEntry : Obligations.LutLowMaskReadsEntry := by
  refine ⟨rfl, fun s => ?_⟩
  obtain ⟨hbelow, hlast, hfault⟩ := exec_of_mask_check (i := .lutLowMask) (s := s) rfl
  rw [lowMaskEntry_64] at hlast
  refine ⟨fun hin => ?_, hlast, hfault⟩
  rw [← lowMaskEntry_of_le (by omega)]
  exact hbelow hin

/-- Settles O27: LUT_HIGH_MASK reads `highMaskEntry`, below index 64 and at it. -/
theorem lutHighMaskReadsEntry : Obligations.LutHighMaskReadsEntry := by
  refine ⟨rfl, fun s => ?_⟩
  obtain ⟨hbelow, hlast, hfault⟩ := exec_of_mask_check (i := .lutHighMask) (s := s) rfl
  rw [highMaskEntry_64] at hlast
  refine ⟨fun hin => ?_, hlast, hfault⟩
  rw [← highMaskEntry_of_le (by omega)]
  exact hbelow hin

end Sys2Proof.Proofs

/-! Exceptions (spec/60_exceptions.md): an illegal word gets its own response and disturbs nothing, a command in
contract is answered, and a violation is the only fault of a step and leaves only R open to the engine. What is
owed stays allowed at every step, and returns drain it in order. -/
namespace Sys2Proof.Proofs

open Sys2Proof.Machine Sys2Proof.Safety

/-! Commands in and out of contract -/

/-- Settles O28: in contract the command has an answer, and out of contract the reason the table gives it. -/
theorem answersExactlyInContract : Obligations.AnswersExactlyInContract := by
  intro i s
  refine ⟨fun hin => ?_, fun hout => ?_⟩
  · obtain ⟨r, hok, -⟩ := commandAnswer_of_inContract hin s.current.a
    exact ⟨r, exec_of_ok hok⟩
  · obtain ⟨v, hreason, herr⟩ := commandAnswer_of_not_inContract hout s.current.a
    exact ⟨v, hreason, exec_of_error herr⟩

/-! Issuing a command -/

/-- R155: outside reset an illegal word gets the illegal-command response and does nothing else. -/
theorem step_issue_illegal {s : State} {q : Request} {es : List Event} {e : Illegal}
    (hev : s.events = .issue q :: es) (hr : s.rst = false) (hd : decode q.cmd = .illegal e) :
    step s = .next (afterResponse (presented s q) 0#64 .illegalCommand) :=
  step_issue_not_wf hev hr ((exists_decode_illegal_iff_not_wf q.cmd).1 ⟨e, hd⟩)

/-- Outside reset a legal command in contract is answered. -/
theorem step_issue_inContract {s : State} {q : Request} {es : List Event} {i : Instr}
    (hev : s.events = .issue q :: es) (hr : s.rst = false) (hd : decode q.cmd = .legal i)
    (hin : inContract i (sint q.b) = true) :
    ∃ r, step s = .next (afterResponse (presented s q) r .ok) := by
  rw [stepRunsDecodedCommand s q es i hev hr hd]
  exact (answersExactlyInContract i (presented s q)).1 hin

/-- R157, R158: outside reset a legal command out of contract faults with its reason and is recorded. -/
theorem step_issue_violation {s : State} {q : Request} {es : List Event} {i : Instr}
    (hev : s.events = .issue q :: es) (hr : s.rst = false) (hd : decode q.cmd = .legal i)
    (hout : inContract i (sint q.b) = false) :
    ∃ v, violationReason i = some v ∧ step s = .fault (.contractViolation v q) := by
  rw [stepRunsDecodedCommand s q es i hev hr hd]
  exact (answersExactlyInContract i (presented s q)).2 hout

/-- R178, U20: in reset a command is refused. -/
theorem step_issue_inReset {s : State} {q : Request} {es : List Event}
    (hev : s.events = .issue q :: es) (hr : s.rst = true) : step s = .refused (.commandInReset q) := by
  rw [step_issue hev, issueCommand, if_pos (by simpa using hr)]

/-- A command that has a response alone gets it outside reset, behind what is owed. -/
theorem step_issue_of_responseAlone {s : State} {q : Request} {es : List Event} {x : Response}
    (hev : s.events = .issue q :: es) (hr : s.rst = false) (hx : responseAlone q = some x) :
    step s = .next { presented s q with
      inFlight := s.inFlight ++ [{ request := q, response := x }] } := by
  rcases step_issue_responseAlone hev hr with ⟨y, hy, hs⟩ | ⟨v, hnone, -⟩
  · cases hx.symm.trans hy
    exact hs
  · cases hx.symm.trans hnone

/-- Settles O5: the step appends the illegal-command response, and the next command runs from the state that
leaves. -/
theorem illegalCommandResponse : Obligations.IllegalCommandResponse := by
  intro s q es e hev hr hd
  have hfirst := step_issue_illegal hev hr hd
  refine ⟨hfirst, rfl, ?_⟩
  rintro q' es' x rfl hx
  have hrest : (afterResponse (presented s q) 0#64 .illegalCommand).events = .issue q' :: es' :=
    congrArg List.tail hev
  have hsecond := step_issue_of_responseAlone hrest hr hx
  rw [run_succ 1 hfirst, run_succ 0 hsecond]
  simp [Host.Core.run, presented, afterResponse, hev]

/-! What stops a step -/

/-- A move other than issuing a command is always answered. -/
theorem step_answers_or_issues (s : State) :
    (∃ t, step s = .next t) ∨ ∃ q es, s.events = .issue q :: es := by
  match hev : s.events with
  | [] => exact .inl ⟨_, step_deliver (by simp [hev])⟩
  | .deliver :: es => exact .inl ⟨_, step_deliver (by simp [hev])⟩
  | .assertReset :: es => exact .inl ⟨_, step_assertReset hev⟩
  | .releaseReset :: es => exact .inl ⟨_, step_releaseReset hev⟩
  | .issue q :: es => exact .inr ⟨q, es, rfl⟩

/-- A step answers, or refuses a command in reset, or faults on a violation. -/
theorem step_cases (s : State) :
    (∃ t, step s = .next t) ∨
    (∃ q es, s.events = .issue q :: es ∧ s.rst = true ∧ step s = .refused (.commandInReset q)) ∨
    (∃ q es i v, s.events = .issue q :: es ∧ s.rst = false ∧ decode q.cmd = .legal i ∧
      inContract i (sint q.b) = false ∧ violationReason i = some v ∧
      step s = .fault (.contractViolation v q)) := by
  rcases step_answers_or_issues s with hnext | ⟨q, es, hev⟩
  · exact .inl hnext
  cases hr : s.rst with
  | true => exact .inr (.inl ⟨q, es, hev, rfl, step_issue_inReset hev hr⟩)
  | false =>
    cases hd : decode q.cmd with
    | illegal e => exact .inl ⟨_, step_issue_illegal hev hr hd⟩
    | legal i =>
      cases hc : inContract i (sint q.b) with
      | true =>
        obtain ⟨r, hs⟩ := step_issue_inContract hev hr hd hc
        exact .inl ⟨_, hs⟩
      | false =>
        obtain ⟨v, hv, hs⟩ := step_issue_violation hev hr hd hc
        exact .inr (.inr ⟨q, es, i, v, hev, rfl, hd, hc, hv, hs⟩)

/-- Settles O29: of the three things a step can do, only a violation faults and only a command in reset is
refused. -/
theorem stepStopsOnlyOnViolation : Obligations.StepStopsOnlyOnViolation := by
  intro s
  rcases step_cases s with ⟨t, hs⟩ | ⟨q, es, hev, hr, hs⟩ | ⟨q, es, i, v, hev, hr, hd, hc, hv, hs⟩
  · simp [hs]
  · refine ⟨by simp [hs], fun r h => ?_⟩
    cases hs.symm.trans h
    exact ⟨q, es, hev, hr, rfl⟩
  · refine ⟨fun f h => ?_, by simp [hs]⟩
    cases hs.symm.trans h
    exact ⟨q, es, i, v, hev, hr, hd, hc, hv, rfl⟩

/-- R156: where the step faults, the engine goes on with any word. -/
theorem engineStep_iff_of_fault {s t : State} {v : Violation} {q : Request}
    (h : step s = .fault (.contractViolation v q)) :
    EngineStep s t ↔ ∃ r, t = afterResponse (presented s q) r .ok := by
  simp only [EngineStep, h, present_advance, answer_eq_afterResponse]

/-- Settles O30: the step faults on the violating command, where the engine goes on. -/
theorem violationLeavesOnlyResultOpen : Obligations.ViolationLeavesOnlyResultOpen := by
  intro s q es i hev hr hd hout t
  obtain ⟨v, -, hs⟩ := step_issue_violation hev hr hd hout
  exact engineStep_iff_of_fault hs

/-! The invariant -/

/-- R82 to R149, R155: the response a command gets alone is one the engine may give. -/
theorem responseAllowed_of_responseAlone {q : Request} {x : Response} (h : responseAlone q = some x) :
    ResponseAllowed q x := by
  cases hd : decode q.cmd with
  | illegal e =>
    rw [responseAlone_illegal hd] at h
    cases h
    refine ⟨rfl, fun _ => ⟨rfl, rfl⟩, fun i hi => ?_⟩
    cases hd.symm.trans ((decodeIffEncode q.cmd i).2 hi)
  | legal i =>
    rw [responseAlone_legal hd, Option.map_eq_some_iff] at h
    obtain ⟨r, hr, rfl⟩ := h
    have hwf : wfCommandWord q.cmd = true := (wfCommandWord_iff q.cmd).2 ⟨i, hd⟩
    refine ⟨rfl, fun hill => ?_, fun j hj => ⟨rfl, fun _ => ?_⟩⟩
    · cases hwf.symm.trans hill
    · cases hd.symm.trans ((decodeIffEncode q.cmd j).2 hj)
      exact answers_of_gives ((resultOf_eq i q.a q.b).trans hr)

/-- R176: outside reset a return takes the oldest response off the FIFO. -/
theorem deliverOldest_inFlight {s : State} (hr : s.rst = false) :
    (deliverOldest s).inFlight = s.inFlight.tail := by
  cases hf : s.inFlight with
  | nil => rw [deliverOldest_idle hf, hf, List.tail_nil]
  | cons e rest => rw [deliverOldest_cons hr hf, List.tail_cons]

theorem inv_advance {s : State} (h : Inv s) : Inv (advance s) :=
  ⟨fun hr => ⟨(h.1 hr).1, rfl⟩, h.2⟩

theorem inv_deliverOldest {s : State} (h : Inv s) : Inv (deliverOldest s) := by
  cases hr : s.rst with
  | true => rwa [deliverOldest_inReset hr]
  | false =>
    obtain ⟨-, hallowed⟩ := h
    refine ⟨fun hrst => ?_, fun e he => hallowed e ?_⟩
    · rw [deliverOldest_rst, hr] at hrst
      cases hrst
    · rw [deliverOldest_inFlight hr] at he
      exact List.mem_of_mem_tail he

theorem inv_enterReset {s : State} (ho : s.out = none) : Inv (enterReset s) :=
  ⟨fun _ => ⟨rfl, ho⟩, fun _ he => absurd he List.not_mem_nil⟩

theorem inv_leaveReset {s : State} (h : Inv s) : Inv (leaveReset s) :=
  ⟨fun hr => (Bool.false_ne_true hr).elim, h.2⟩

/-- Accepting a command outside reset keeps the invariant when its response is allowed. -/
theorem inv_accept {s : State} {q : Request} {x : Response} (h : Inv s) (hr : s.rst = false)
    (hx : ResponseAllowed q x) :
    Inv { presented s q with inFlight := s.inFlight ++ [{ request := q, response := x }] } := by
  refine ⟨fun hrst => (Bool.false_ne_true (hr.symm.trans hrst)).elim, fun e he => ?_⟩
  rcases List.mem_append.1 he with hold | hnew
  · exact h.2 e hold
  · obtain rfl := List.mem_singleton.1 hnew
    exact hx

/-- Settles O37: each of the four moves keeps the invariant. -/
theorem stepKeepsInvariant : Obligations.StepKeepsInvariant := by
  intro s t h hs
  rcases step_next hs with ⟨q, es, -, -, hev, hr, -⟩ | ⟨-, rfl⟩ | ⟨es, -, rfl⟩ | ⟨es, -, rfl⟩
  · rcases step_issue_responseAlone hev hr with ⟨x, hx, hnext⟩ | ⟨v, -, hfault⟩
    · cases hs.symm.trans hnext
      exact inv_accept h hr (responseAllowed_of_responseAlone hx)
    · cases hs.symm.trans hfault
  · exact inv_deliverOldest (inv_advance h)
  · exact inv_enterReset (advance_out s)
  · exact inv_leaveReset (inv_advance h)

/-! Runs of returns -/

/-- Outside reset, with the next k moves returns: scheduled, or after the schedule's end. -/
def Returning (k : Nat) (s : State) : Prop :=
  s.rst = false ∧ ∀ e ∈ s.events.take k, e = .deliver

theorem nextEvent_of_returning {k : Nat} {s : State} (h : Returning (k + 1) s) : nextEvent s = .deliver := by
  obtain ⟨-, hev⟩ := h
  unfold nextEvent
  cases hs : s.events with
  | nil => rfl
  | cons e es => exact hev e (by simp [hs])

theorem deliverOldest_out_eq {s : State} (hr : s.rst = false) (ho : s.out = none) :
    (deliverOldest s).out = s.inFlight.head?.map (·.response) := by
  cases hf : s.inFlight with
  | nil => rw [deliverOldest_idle hf, ho]; rfl
  | cons e rest => rw [deliverOldest_cons hr hf]; rfl

/-- R176: the first of several returns puts the oldest response on the ports, takes it off the FIFO and leaves
the others to come. -/
theorem step_returning {k : Nat} {s : State} (h : Returning (k + 1) s) :
    ∃ t, step s = .next t ∧ Returning k t ∧ t.events = s.events.tail ∧ t.inFlight = s.inFlight.tail ∧
      t.out = s.inFlight.head?.map (·.response) := by
  have hstep := step_deliver (nextEvent_of_returning h)
  have hevents := step_events hstep
  obtain ⟨hr, hev⟩ := h
  refine ⟨_, hstep, ⟨(deliverOldest_rst _).trans hr, fun e he => hev e ?_⟩, hevents,
    deliverOldest_inFlight (s := advance s) hr, deliverOldest_out_eq (s := advance s) hr rfl⟩
  rw [hevents] at he
  rw [take_succ_eq_append]
  exact List.mem_append_right _ he

/-- R176: k returns take k moves off the schedule and the k oldest responses off the FIFO. -/
theorem run_returning (k : Nat) : ∀ {s : State}, Returning k s →
    ∃ t, core.run k s = .next t ∧ t.events = s.events.drop k ∧ t.inFlight = s.inFlight.drop k := by
  induction k with
  | zero => exact fun {s} _ => ⟨s, rfl, rfl, rfl⟩
  | succ k ih =>
    intro s h
    obtain ⟨u, hstep, hu, hevents, hfifo, -⟩ := step_returning h
    obtain ⟨t, hrun, htevents, htfifo⟩ := ih hu
    refine ⟨t, (run_succ k hstep).trans hrun, ?_, ?_⟩
    · rw [htevents, hevents, List.drop_tail]
    · rw [htfifo, hfifo, List.drop_tail]

/-- R176: k returns give the k oldest responses, oldest first. -/
theorem returned_returning (k : Nat) : ∀ {s : State}, Returning k s →
    returned k s = (s.inFlight.take k).map (·.response) := by
  induction k with
  | zero => exact fun _ => rfl
  | succ k ih =>
    intro s h
    obtain ⟨u, hstep, hu, -, hfifo, hout⟩ := step_returning h
    rw [returned_succ k hstep, ih hu, hfifo, hout]
    cases s.inFlight <;> simp

/-- R188: k returns bring the response of the last command when they empty a FIFO that owed it. -/
theorem lastAnswered_returning (k : Nat) : ∀ {s : State} (b : Bool), Returning k s →
    (lastAnswered k s b = true ↔ b = true ∨ (s.inFlight ≠ [] ∧ s.inFlight.length ≤ k)) := by
  induction k with
  | zero =>
    intro s b _
    simp [lastAnswered]
  | succ k ih =>
    intro s b h
    obtain ⟨u, hstep, hu, -, hfifo, hout⟩ := step_returning h
    rw [lastAnswered_succ k b hstep, ih _ hu, answeredAfter_deliver (nextEvent_of_returning h), hfifo, hout]
    match s.inFlight with
    | [] => simp
    | [e] => simp
    | e :: e' :: rest => simp

/-- With nothing scheduled, every number of moves outside reset is of returns. -/
theorem returning_of_unscheduled {s : State} (hr : s.rst = false) (hev : s.events = []) (k : Nat) :
    Returning k s := ⟨hr, by simp [hev]⟩

/-- R188: with nothing scheduled, a run that owes a response ends when the last one has been returned. -/
theorem finished_iff_of_unscheduled {s : State} (hr : s.rst = false) (hev : s.events = [])
    (hf : s.inFlight ≠ []) (k : Nat) : Finished k s ↔ s.inFlight.length ≤ k := by
  have hreturning := returning_of_unscheduled hr hev k
  have hlast := lastAnswered_returning k false hreturning
  constructor
  · rintro ⟨t, -, -, -, hanswered⟩
    simpa [hf] using hlast.1 hanswered
  · intro hle
    obtain ⟨t, hrun, hevents, hfifo⟩ := run_returning k hreturning
    refine ⟨t, hrun, ?_, hfifo.trans (List.drop_eq_nil_of_le hle), hlast.2 (.inr ⟨hf, hle⟩)⟩
    simp [hevents, hev]

/-- R180: with nothing scheduled and nothing owed the engine is idle. -/
theorem step_idle {s : State} (hev : s.events = []) (hf : s.inFlight = []) :
    step s = .next { s with out := none } := by
  have hnext : s.events.headD .deliver = .deliver := by rw [hev]; rfl
  rw [step_deliver hnext, deliverOldest_idle (s := advance s) hf, advance, hev, List.tail_nil, ← hev]

/-- Settles O39: as many returns as there are responses owed give them all. -/
theorem owedResponsesDrainInOrder : Obligations.OwedResponsesDrainInOrder := by
  intro s hr hev
  have hreturning : Returning s.inFlight.length s := ⟨hr, hev⟩
  obtain ⟨t, hrun, hevents, hfifo⟩ := run_returning _ hreturning
  rw [List.drop_length] at hfifo
  refine ⟨by rw [returned_returning _ hreturning, List.take_length], t, hrun, hevents, hfifo, fun hnone => ?_⟩
  exact ⟨step_idle (by rw [hevents, hnone, List.drop_nil]) hfifo, finished_iff_of_unscheduled hr hnone⟩

end Sys2Proof.Proofs

/-! Reset and the end of a run (spec/70_reset_and_hazards.md): reset discards what is in flight and lets nothing
happen until it is released, the engine is then idle and ready, and a run ends with the response of its last
command, if reset or a contract violation does not take that away. -/
namespace Sys2Proof.Proofs

open Sys2Proof.Machine Sys2Proof.Safety

/-! The moves that are not commands, as whole next states -/

/-- R178, R179: asserting reset empties the FIFO and the response ports. -/
theorem step_assertReset_eq {s : State} {es : List Event} (hev : s.events = .assertReset :: es) :
    step s = .next { s with events := es, rst := true, inFlight := [], out := none } := by
  rw [step_assertReset hev, enterReset, advance, hev, List.tail_cons]

/-- R180: releasing reset changes the reset input and nothing that is in flight. -/
theorem step_releaseReset_eq {s : State} {es : List Event} (hev : s.events = .releaseReset :: es) :
    step s = .next { s with events := es, rst := false, out := none } := by
  rw [step_releaseReset hev, leaveReset, advance, hev, List.tail_cons]

/-- Settles O55: the return takes the oldest response off the FIFO, and finds none in an empty one. -/
theorem returnGivesOldestResponse : Obligations.ReturnGivesOldestResponse := by
  intro s hr hnext
  rw [step_deliver hnext]
  refine ⟨fun e rest hf => ?_, fun hf => ?_⟩
  · rw [deliverOldest_cons (s := advance s) hr hf]
    rfl
  · rw [deliverOldest_idle (s := advance s) hf]
    rfl

/-! During reset -/

/-- R178: a move in reset returns nothing and accepts nothing, and only a release ends the reset. -/
theorem step_inReset {s t : State} (hr : s.rst = true) (hs : step s = .next t) :
    t.out = none ∧ (t.inFlight = s.inFlight ∨ t.inFlight = []) ∧
      (s.events.head? ≠ some .releaseReset → t.rst = true) := by
  rcases step_next hs with ⟨-, -, -, -, -, hout, -⟩ | ⟨-, rfl⟩ | ⟨es, -, rfl⟩ | ⟨es, hev, rfl⟩
  · cases hr.symm.trans hout
  · rw [deliverOldest_inReset (s := advance s) hr]
    exact ⟨rfl, .inl rfl, fun _ => hr⟩
  · exact ⟨rfl, .inr rfl, fun _ => rfl⟩
  · exact ⟨rfl, .inl rfl, fun hne => absurd (by rw [hev]; rfl) hne⟩

/-- Settles O10: in reset a command is refused, and every other move is answered. -/
theorem nothingHappensDuringReset : Obligations.NothingHappensDuringReset := by
  refine fun s hr => ⟨fun q es hev => step_issue_inReset hev hr, fun hnone => ?_⟩
  rcases step_answers_or_issues s with ⟨t, hs⟩ | ⟨q, es, hev⟩
  · exact ⟨t, hs, step_inReset hr hs⟩
  · exact absurd hev (hnone q es)

/-! With nothing owed and nothing to be issued -/

/-- A state that owes nothing and whose schedule issues nothing. -/
def OwesNothing (s : State) : Prop := s.inFlight = [] ∧ ∀ q, .issue q ∉ s.events

/-- R179, R180: with nothing owed a step is answered, returns no response and still owes nothing. -/
theorem step_of_owesNothing {s : State} (h : OwesNothing s) :
    ∃ t, step s = .next t ∧ OwesNothing t ∧ t.out = none := by
  obtain ⟨hf, hev⟩ := h
  rcases step_answers_or_issues s with ⟨t, hs⟩ | ⟨q, es, hissue⟩
  · obtain ⟨hfifo, hout, hrest⟩ := step_owesNothing hf hev hs
    exact ⟨t, hs, ⟨hfifo, hrest⟩, hout⟩
  · exact absurd (by simp [hissue]) (hev q)

/-- R179: what is not owed is never returned. -/
theorem returned_of_owesNothing (k : Nat) : ∀ {s : State}, OwesNothing s → returned k s = [] := by
  induction k with
  | zero => exact fun _ => rfl
  | succ k ih =>
    intro s h
    obtain ⟨t, hs, ht, hout⟩ := step_of_owesNothing h
    rw [returned_succ k hs, hout, ih ht]
    rfl

/-- R179: asserting reset with no command to come leaves nothing owed. -/
theorem owesNothing_of_reset (s : State) {es : List Event} (hev : ∀ q, Event.issue q ∉ es) :
    OwesNothing { s with events := es, rst := true, inFlight := [], out := none } := ⟨rfl, hev⟩

/-- Settles O9: the discarded commands are no longer owed. -/
theorem resetDiscardsInFlight : Obligations.ResetDiscardsInFlight :=
  fun s _ hev => ⟨step_assertReset_eq hev,
    fun k hnone => returned_of_owesNothing k (owesNothing_of_reset s hnone)⟩

/-! After reset -/

/-- Settles O36: reset is released with nothing in flight. -/
theorem invariantAtReset : Obligations.InvariantAtReset :=
  ⟨fun hr => (Bool.false_ne_true hr).elim, fun _ he => absurd he List.not_mem_nil⟩

/-- R155, R157: an illegal command and one in contract have a response. -/
theorem exists_responseAlone_of_inContract {q : Request} (h : requestInContract q = true) :
    ∃ x, responseAlone q = some x := by
  cases hd : decode q.cmd with
  | illegal e => exact ⟨_, responseAlone_illegal hd⟩
  | legal i =>
    have hin : inContract i (sint q.b) = true := by simpa [requestInContract, hd] using h
    obtain ⟨r, hok, -⟩ := commandAnswer_of_inContract hin q.a
    rw [responseAlone_legal hd, hok]
    exact ⟨_, rfl⟩

/-- Settles O8: the state after reset is idle, and a first command with a response gets it. -/
theorem resetLeavesEngineIdle : Obligations.ResetLeavesEngineIdle := by
  refine ⟨rfl, rfl, rfl, step_idle rfl rfl, fun q hq => ?_⟩
  obtain ⟨x, hx⟩ := exists_responseAlone_of_inContract hq
  exact ⟨x, _, step_issue_of_responseAlone rfl rfl hx, rfl⟩

/-- Settles O35: the release leaves the FIFO as the invariant has it in reset, and the first command enters
it. -/
theorem releaseLeavesEngineIdle : Obligations.ReleaseLeavesEngineIdle := by
  intro s es hinv hr hev
  obtain ⟨hf, -⟩ := hinv.1 hr
  have hrelease := step_releaseReset_eq hev
  refine ⟨hrelease, hf, ?_⟩
  rintro q es' x rfl hx
  rw [run_succ 1 hrelease, run_succ 0 (step_issue_of_responseAlone rfl rfl hx), hf]
  rfl

/-! The end of a run -/

theorem not_finished_zero (s : State) : ¬Finished 0 s := by
  rintro ⟨t, -, -, -, hanswered⟩
  exact Bool.false_ne_true hanswered

/-- A step that brings no response of the last command leaves the end of the run to the steps after it. -/
theorem finished_succ_iff {s t : State} (k : Nat) (hs : step s = .next t)
    (hanswered : answeredAfter s t false = false) : Finished (k + 1) s ↔ Finished k t := by
  unfold Finished
  rw [run_succ k hs, lastAnswered_succ k false hs, hanswered]

/-- R157: a run that faults has no end. -/
theorem not_finished_of_fault {s : State} {f : Fault} (hs : step s = .fault f) (k : Nat) : ¬Finished k s := by
  cases k with
  | zero => exact not_finished_zero s
  | succ k =>
    rintro ⟨t, hrun, -⟩
    cases (run_fault k hs).symm.trans hrun

/-- A step that returns no response does not bring that of the last command. -/
theorem answeredAfter_of_out_none {s t : State} (hout : t.out = none) : answeredAfter s t false = false := by
  unfold answeredAfter
  split
  · rfl
  · rw [hout]
    rfl
  · rfl
  · rfl

/-- R179: a run that is owed nothing does not receive the response it waits for. -/
theorem not_finished_of_owesNothing (k : Nat) : ∀ {s : State}, OwesNothing s → ¬Finished k s := by
  induction k with
  | zero => exact fun {s} _ => not_finished_zero s
  | succ k ih =>
    intro s h
    obtain ⟨t, hs, ht, hout⟩ := step_of_owesNothing h
    rw [finished_succ_iff k hs (answeredAfter_of_out_none hout)]
    exact ih ht

/-- R179, R188: a run whose last command reset discards has no end. -/
theorem not_finished_of_assertReset {s : State} {es : List Event} (hev : s.events = .assertReset :: es)
    (hnone : ∀ q, Event.issue q ∉ es) (k : Nat) : ¬Finished k s := by
  cases k with
  | zero => exact not_finished_zero s
  | succ k =>
    rw [finished_succ_iff k (step_assertReset_eq hev) (answeredAfter_of_out_none rfl)]
    exact not_finished_of_owesNothing k (owesNothing_of_reset s hnone)

/-- R176, R188: after its last command's acceptance a run ends when the FIFO with that command has drained. -/
theorem finished_iff_of_last_command {s : State} {q : Request} {x : Response} (hev : s.events = [.issue q])
    (hr : s.rst = false) (hx : responseAlone q = some x) (k : Nat) :
    Finished k s ↔ s.inFlight.length + 2 ≤ k := by
  cases k with
  | zero => simpa using not_finished_zero s
  | succ k =>
    rw [finished_succ_iff k (step_issue_of_responseAlone hev hr hx) (answeredAfter_of_out_none rfl),
      finished_iff_of_unscheduled (by exact hr) (by simp [presented, hev]) (by simp)]
    simp

/-- Settles O56: by what becomes of the last command: answered, in violation, or discarded. -/
theorem runEndsWithLastResponse : Obligations.RunEndsWithLastResponse := by
  refine fun s => ⟨fun q hev hr => ⟨fun x => finished_iff_of_last_command hev hr, fun hnone => ?_⟩,
    fun es hev _ => not_finished_of_assertReset hev⟩
  rcases step_issue_responseAlone hev hr with ⟨x, hx, -⟩ | ⟨v, -, hfault⟩
  · cases hnone.symm.trans hx
  · exact not_finished_of_fault hfault

end Sys2Proof.Proofs
